-- ==== Sys2Proof/Word.lean ====
section
/-! DEFINITION. The word types of the CCU: what the spec moves as bits. Widths are those of 10_state.md rule R22 and
20_memory.md rule R60. Every value is unsigned (00_scope.md rule R9). -/

namespace Sys2Proof

/-- A byte: the elements of `RX` and `TX` and the 8-bit registers (R22). -/
abbrev Byte := BitVec 8

/-- A 16-bit word: the register stores, `BALMASK`, `CRC14_INIT`, `CRC14_RES` (R22). -/
abbrev Half := BitVec 16

/-- A 32-bit word: a command word (R80), `CMD` and `STATUS` (R23, R24). -/
abbrev Word := BitVec 32

/-- The 14-bit accumulator of the payload checksum (41_crc14.md rule R120). -/
abbrev Crc := BitVec 14

/-- An address of the host space: 11 bits, 0x000 to 0x7FF (`ADDR_BITS`, R8 and R60). -/
abbrev Addr := BitVec 11

end Sys2Proof
end

