-- ==== Sys2Proof/Config.lean ====
section
/-! DEFINITION. The parameters of 00_scope.md rule R8, each a named constant (R7: every literal is unaudited, so a
correction changes one place; log 10). `t8` and `cfgCrc14Seed` are OPEN: constants with no body, so that nothing can be
proved of their values. The rest are the spec's values and decided defaults. -/

namespace Sys2Proof

/-- The balance alternation flag (R27): `even` selects `PAT_EVEN`, `odd` selects `PAT_ODD`. The names are the document's
labels only; 90_conflicts.md C2 says which bit indices each passes. -/
inductive Phase where
  | even
  | odd
deriving DecidableEq, Repr

namespace Config

/-- `MAX_CHIPS` (R8). -/
abbrev maxChips : Nat := 8

/-- `SLOTS` (R8): voltage-register positions per chip. -/
abbrev slots : Nat := 15

/-- Cells of one cell-voltage register group (42_codec_decode.md section 2: "3 cells each"). -/
abbrev groupCells : Nat := 3

/-- `RX_SIZE` in bytes (R8, D15). -/
abbrev rxSize : Nat := 75

/-- `TX_SIZE` in bytes (R8, D15). -/
abbrev txSize : Nat := 48

/-- `STRIDE_CV` in bytes (R8). -/
def strideCv : Nat := 9

/-- `STRIDE_AUX` in bytes (R8). -/
def strideAux : Nat := 9

/-- `STRIDE_TV` in bytes (R8). -/
def strideTv : Nat := 7

/-- `STRIDE_CFG` in bytes (R8). -/
def strideCfg : Nat := 7

/-- `TEMP_STRIDE_W` in 16-bit words (R8). -/
def tempStrideW : Nat := 4

/-- `TEMP_FIRST_W` in 16-bit words (R8). -/
def tempFirstW : Nat := 1

/-- `SEG_OFF` in bytes: where a segment's data words start (R8, decided D17; log 8). -/
def segOff : Nat := 1

/-- `TV_WORD`: which data word of the segment is the total voltage (R8, decided D18; log 8). -/
def tvWord : Nat := 0

/-- `SENTINEL` (R8): the raw word that means "no valid sample this cycle". -/
def sentinel : Half := 0xFFFF

/-- `MV_DIV` (R8): the divisor from raw code to millivolts, 12.5 exactly. -/
def mvDiv : ℚ := 25 / 2

/-- `CRC8_SEED` (R8). -/
def crc8Seed : Byte := 0x10

/-- `T8` (R8, R102): the chip vendor's CRC-8 table. OPEN (D10, U1): no entry is known, so this constant has no body and
a statement about a CRC-8 result holds for every table (log 4). -/
opaque t8 : Byte → Byte

/-- `CRC14_POLY` (R8). -/
def crc14Poly : Crc := 0x025B

/-- One of the eight shifts that build an entry of `T14` (R121). -/
def t14Shift (c : Crc) : Crc :=
  if c.getLsbD 13 then (c <<< 1) ^^^ crc14Poly else c <<< 1

/-- `T14` (R8): the 256-entry CRC-14 table by the construction of R121, most significant bit first, not reflected
(decided D11; log 6). The entry's index starts in bits 13:6. -/
def t14 (i : Byte) : Crc :=
  t14Shift^[8] (i.setWidth 14 <<< 6)

/-- `RESID_ALIGN` = MSB (R8, decided D12; log 7): the bit of the residual byte that step `k` of the bit phase folds in. -/
def residBit (k : Nat) : Nat := 7 - k

/-- `CFG_ADDR` (R8): byte 0 of a configuration-write frame. -/
def cfgAddr : Byte := 0xF3

/-- `CFG_BYTE1` (R8): byte 1 of a configuration-write frame. -/
def cfgByte1 : Byte := 0x00

/-- `PAT_EVEN` (R8). -/
def patEven : Byte := 0xAA

/-- `PAT_ODD` (R8). -/
def patOdd : Byte := 0x55

/-- `CFG_CRC14_SEED` (R8): the seed the chips expect for configuration writes. OPEN (D13, U2): no body. The block itself
never reads it; the host programs it into `CRC14_INIT` (R242; log 5). -/
opaque cfgCrc14Seed : Crc

/-- `SWAP5V_RESET` = {0,3,5,7} (R8, decided D30; log 9). -/
def swap5vReset : Byte := 0xA9

/-- `PHASE_RESET` (R8, decided D28; log 9). -/
def phaseReset : Phase := .even

/-- Bytes of one configuration-write frame (R192). -/
def frameSize : Nat := 6

/-- The low 14 bits, the writable part of `CRC14_INIT` (R31). -/
def crc14Mask : Half := 0x3FFF

end Config

end Sys2Proof
end

