-- ==== Sys2Proof/Syntax.lean ====
section
/-! DEFINITION. The command set `CCU-1`: one constructor for each row of spec/opcode_table.json. Operands are unsigned
numbers (30_encoding.md rule R82); which values a command word can hold is `Instr.wellFormed`. -/

namespace Sys2Proof

/-- The source buffer of CRC8 and CRC14, field `BUF` (R81): 0 is `RX`, 1 is `TX`. -/
inductive Buf where
  | rx
  | tx
deriving DecidableEq, Repr

/-- The commands. `off` is `OFF`, `len` is `LEN` and `nbits` is `NBITS` (R81; log 17). -/
inductive Instr where
  /-- `crc8 rx|tx, OFF, LEN` (R100). -/
  | crc8 (buf : Buf) (off len : Nat)
  /-- `crc14 rx|tx, OFF, LEN, NBITS` (R126). -/
  | crc14 (buf : Buf) (off len nbits : Nat)
  /-- `dec.cva` (R153). -/
  | decCva
  /-- `dec.cvb` (R154). -/
  | decCvb
  /-- `dec.cvc` (R155). -/
  | decCvc
  /-- `dec.cvd` (R156). -/
  | decCvd
  /-- `dec.cve` (R157). -/
  | decCve
  /-- `dec.tv` (R158). -/
  | decTv
  /-- `dec.aux` (R159). -/
  | decAux
  /-- `dec.cfg` (R161). -/
  | decCfg
  /-- `dec.temp` (R162). -/
  | decTemp
  /-- `enc.cfg` (R190). -/
  | encCfg
deriving DecidableEq, Repr

end Sys2Proof
end

