-- ==== Sys2Proof/WellFormed.lean ====
section
/-! DEFINITION. Which instructions a command word can hold: each operand inside its field (30_encoding.md rules R81 and
R88: the assembler rejects an operand outside its field, the CCU never sees such a word). -/

namespace Sys2Proof

/-- `OFF` is a number from 0 to 127 (R81, R88). -/
def offFits (off : Nat) : Bool := decide (off < 128)

/-- `LEN` is a number from 0 to 127 (R81, R88). -/
def lenFits (len : Nat) : Bool := decide (len < 128)

/-- `NBITS` is a number from 0 to 7 (R81, R88). -/
def nbitsFits (nbits : Nat) : Bool := decide (nbits < 8)

/-- Every operand of the instruction lies inside its field. -/
def Instr.wellFormed : Instr → Bool
  | .crc8 _ off len => offFits off && lenFits len
  | .crc14 _ off len nbits => offFits off && lenFits len && nbitsFits nbits
  | .decCva => true
  | .decCvb => true
  | .decCvc => true
  | .decCvd => true
  | .decCve => true
  | .decTv => true
  | .decAux => true
  | .decCfg => true
  | .decTemp => true
  | .encCfg => true

end Sys2Proof
end

