-- ==== Sys2Proof/Decode.lean ====
section
/-! DEFINITION. Decoding a command word (30_encoding.md rules R80 to R87, R92), total on every 32-bit word, and after it
the encoder (R88). -/

namespace Sys2Proof

/-! The fields of a command word (R81). -/

/-- `OP`, bits 31:28. -/
def opField (w : Word) : Nat := (w.extractLsb' 28 4).toNat

/-- `SUB`, bits 27:24. -/
def subField (w : Word) : Nat := (w.extractLsb' 24 4).toNat

/-- `NBITS`, bits 18:16. -/
def nbitsField (w : Word) : Nat := (w.extractLsb' 16 3).toNat

/-- `BUF`, bit 15: 0 is `RX`, 1 is `TX`. -/
def bufField (w : Word) : Buf := if w.getLsbD 15 then .tx else .rx

/-- `OFF`, bits 14:8. -/
def offField (w : Word) : Nat := (w.extractLsb' 8 7).toNat

/-- `LEN`, bits 6:0. -/
def lenField (w : Word) : Nat := (w.extractLsb' 0 7).toNat

/-- One row of the opcode table (R85): a word is this command exactly when `w & mask = pattern`. -/
structure OpcodeRow where
  mnemonic : String
  mask : Word
  pattern : Word
  build : Word → Instr

/-- The word matches the row (R85). -/
def OpcodeRow.hits (r : OpcodeRow) (w : Word) : Bool := w &&& r.mask == r.pattern

/-- The rows of CRC8 and CRC14 (R85). -/
def checksumRows : List OpcodeRow :=
  [ ⟨"CRC8", 0xFFFF0080, 0x10000000, fun w => .crc8 (bufField w) (offField w) (lenField w)⟩,
    ⟨"CRC14", 0xFFF80080, 0x20000000,
      fun w => .crc14 (bufField w) (offField w) (lenField w) (nbitsField w)⟩ ]

/-- The rows of DEC.* (R84, R85): the word is `0x30000000 + (SUB << 24)` exactly. -/
def decodeRows : List OpcodeRow :=
  [ ⟨"DEC.CVA", 0xFFFFFFFF, 0x30000000, fun _ => .decCva⟩,
    ⟨"DEC.CVB", 0xFFFFFFFF, 0x31000000, fun _ => .decCvb⟩,
    ⟨"DEC.CVC", 0xFFFFFFFF, 0x32000000, fun _ => .decCvc⟩,
    ⟨"DEC.CVD", 0xFFFFFFFF, 0x33000000, fun _ => .decCvd⟩,
    ⟨"DEC.CVE", 0xFFFFFFFF, 0x34000000, fun _ => .decCve⟩,
    ⟨"DEC.TV", 0xFFFFFFFF, 0x35000000, fun _ => .decTv⟩,
    ⟨"DEC.AUX", 0xFFFFFFFF, 0x36000000, fun _ => .decAux⟩,
    ⟨"DEC.CFG", 0xFFFFFFFF, 0x37000000, fun _ => .decCfg⟩,
    ⟨"DEC.TEMP", 0xFFFFFFFF, 0x38000000, fun _ => .decTemp⟩ ]

/-- The row of ENC.CFG (R85). -/
def encodeRows : List OpcodeRow :=
  [ ⟨"ENC.CFG", 0xFFFFFFFF, 0x40000000, fun _ => .encCfg⟩ ]

/-- All rows, in the order R92 tries them. -/
def opcodeTable : List OpcodeRow := checksumRows ++ decodeRows ++ encodeRows

/-- Why a word selects no command (R86). The CCU records ILLEGAL_CMD for each of them alike (R212; log 17). -/
inductive Illegal where
  /-- `OP` is 0x0 or 0x5 to 0xF (R83). -/
  | reservedOp (op : Nat)
  /-- `OP` is 3 and `SUB` is 0x9 to 0xF (R84). -/
  | reservedSub (sub : Nat)
  /-- A bit that the command's row fixes at 0 is 1 (R85). -/
  | fixedZeroBit
deriving DecidableEq, Repr

/-- Which of the three an illegal word is (R86). -/
def illegalReason (w : Word) : Illegal :=
  if opField w = 0 ∨ 4 < opField w then .reservedOp (opField w)
  else if opField w = 3 ∧ 8 < subField w then .reservedSub (subField w)
  else .fixedZeroBit

/-- Decoding (R92): the first row the word matches, or the reason it is illegal. -/
def decode (w : Word) : Except Illegal Instr :=
  match opcodeTable.find? (fun r => r.hits w) with
  | some r => .ok (r.build w)
  | none => .error (illegalReason w)

/-- The word the host's instruction bits stand for: a command is one 32-bit word (R80), its bit 0 the table's bit 0. -/
def tableWord (nbits w : Nat) : Word := BitVec.ofNat 32 (w % 2 ^ nbits)

/-- The instruction the decoder reads from a table row's bits. -/
def decodeTableWord (nbits w : Nat) : Option Instr :=
  match decode (tableWord nbits w) with
  | .ok i => some i
  | .error _ => none

/-! The encoder, from the words of R88. An operand outside its field is cut to the field; `Instr.wellFormed` says
when nothing is cut. -/

/-- `BUF<<15` (R88). -/
def encodeBuf : Buf → Word
  | .rx => 0
  | .tx => 1 <<< 15

/-- `OFF<<8` (R88). -/
def encodeOff (off : Nat) : Word := (BitVec.ofNat 7 off).setWidth 32 <<< 8

/-- `LEN` (R88). -/
def encodeLen (len : Nat) : Word := (BitVec.ofNat 7 len).setWidth 32

/-- `NBITS<<16` (R88). -/
def encodeNbits (nbits : Nat) : Word := (BitVec.ofNat 3 nbits).setWidth 32 <<< 16

/-- The command word of an instruction (R88). -/
def encode : Instr → Word
  | .crc8 buf off len => 0x10000000 ||| encodeBuf buf ||| encodeOff off ||| encodeLen len
  | .crc14 buf off len nbits =>
      0x20000000 ||| encodeNbits nbits ||| encodeBuf buf ||| encodeOff off ||| encodeLen len
  | .decCva => 0x30000000
  | .decCvb => 0x31000000
  | .decCvc => 0x32000000
  | .decCvd => 0x33000000
  | .decCve => 0x34000000
  | .decTv => 0x35000000
  | .decAux => 0x36000000
  | .decCfg => 0x37000000
  | .decTemp => 0x38000000
  | .encCfg => 0x40000000

end Sys2Proof
end

