-- ==== Sys2Proof/Machine/State.lean ====
section
/-! DEFINITION. The state of one CCU (10_state.md rule R22), its reset value (R47), and the reasons a step could stop. -/

namespace Sys2Proof.Machine

/-- The cause codes of `STATUS.CAUSE` that are ever recorded (60_exceptions.md rule R211). -/
inductive Cause where
  /-- 0: no fault recorded since reset. -/
  | none
  /-- 1: a word written to `CMD` selects no command. -/
  | illegalCmd
  /-- 2: a CRC8 or CRC14 byte range passes the end of its buffer. -/
  | range
  /-- 3: a host access is not admitted, or writes a read-only element. -/
  | access
  /-- 4: a host write to `CHIPCOUNT` of a value above 8. -/
  | chipCountValue
deriving DecidableEq, Repr

/-- `STATUS` (R24): its three fields. The reserved bits are hard-wired 0 and are made by `Status.word`. -/
structure Status where
  err : Bool
  cause : Cause
  phase : Phase
deriving DecidableEq, Repr

/-- The byte memory of the host space, `RX` and `TX`: cells keyed by host address, strictly rising, none
equal to what an unlisted address reads as (`Memory.wf`; log 13). -/
structure Memory where
  cells : List Host.Cell
deriving DecidableEq, Repr

/-- What the outside world does to the CCU, one item at a time: the host accesses of 20_memory.md rule R62 in the spelling
of 30_encoding.md rule R88, and the reset input of 70_reset_and_hazards.md rule R240. -/
inductive HostOp where
  | rd8 (a : Addr)
  | rd16 (a : Addr)
  | rd32 (a : Addr)
  | wr8 (a : Addr) (v : Byte)
  | wr16 (a : Addr) (v : Half)
  | wr32 (a : Addr) (v : Word)
  /-- The reset input is asserted. -/
  | reset
deriving DecidableEq, Repr

/-- The machine, one instance (log 14): the elements of R22, and two fields of the model's own for the host's side
(`pending`, `readData`). -/
structure State where
  /-- `CMD` (R23). -/
  cmd : Word
  /-- `STATUS` (R24 to R27). -/
  status : Status
  /-- `CHIPCOUNT` (R28). -/
  chipCount : Byte
  /-- `SWAP5V` (R29). -/
  swap5v : Byte
  /-- `VALIDMAP` (R30). -/
  validMap : Byte
  /-- `CRC8_RES` (R33). -/
  crc8Res : Byte
  /-- `CRC14_RES` (R34). -/
  crc14Res : Half
  /-- `CRC14_INIT` (R31). -/
  crc14Init : Half
  /-- `BALMASK[c]` (R32). -/
  balMask : Vector Half Config.maxChips
  /-- `RX[0..74]` and `TX[0..47]` (R35, R36), at their host addresses (R61). -/
  mem : Memory
  /-- `CELLRAW[c][s]` (R37). -/
  cellRaw : Vector (Vector Half Config.slots) Config.maxChips
  /-- `TVRAW[c]` (R39). -/
  tvRaw : Vector Half Config.maxChips
  /-- `AUXT1[c]` (R40). -/
  auxT1 : Vector Half Config.maxChips
  /-- `AUX5V[c]` (R40). -/
  aux5v : Vector Half Config.maxChips
  /-- `AUXT2[c]` (R40). -/
  auxT2 : Vector Half Config.maxChips
  /-- `CFGW0[c]` (R41). -/
  cfgW0 : Vector Half Config.maxChips
  /-- `CFGW1[c]` (R41). -/
  cfgW1 : Vector Half Config.maxChips
  /-- `TEMPRAW[c]` (R42). -/
  tempRaw : Vector Half Config.maxChips
  /-- DESIGN CHOICE (log 1): what the host has yet to do, oldest first. -/
  pending : List HostOp
  /-- DESIGN CHOICE (log 3): the value the last host read returned. -/
  readData : Word
deriving DecidableEq, Repr

/-- A store with one word for each chip, as it is after reset (R47). -/
def chipWordsReset : Vector Half Config.maxChips := Vector.replicate Config.maxChips 0

/-- The machine right after reset (R47), with the host's list empty and nothing read yet (logs 1 and 3). -/
def State.reset : State where
  cmd := 0
  status := ⟨false, .none, Config.phaseReset⟩
  chipCount := 0
  swap5v := Config.swap5vReset
  validMap := 0
  crc8Res := 0
  crc14Res := 0
  crc14Init := 0
  balMask := chipWordsReset
  mem := ⟨[]⟩
  cellRaw := Vector.replicate Config.maxChips (Vector.replicate Config.slots 0)
  tvRaw := chipWordsReset
  auxT1 := chipWordsReset
  aux5v := chipWordsReset
  auxT2 := chipWordsReset
  cfgW0 := chipWordsReset
  cfgW1 := chipWordsReset
  tempRaw := chipWordsReset
  pending := []
  readData := 0

/-- Why a step would stop with a fault. There is no such reason: every fault of the CCU is recorded in `STATUS` and the
block goes on taking host accesses (60_exceptions.md rules R213, R214, R218), so each is a next state. With no constructor,
no meaning can answer a fault: safe. -/
inductive Fault where
deriving DecidableEq, Repr

/-- Why an instruction would have no meaning. -/
inductive Refusal where
  /-- Raised by an arm of `exec` for an instruction the model does not give a meaning to; no arm raises it now. Safe: the
  step stops and nothing can be proved of what follows. -/
  | notModelled (mnemonic : String)
deriving DecidableEq, Repr

end Sys2Proof.Machine
end

