-- ==== Sys2Proof/Machine/Ops.lean ====
section
/-! DEFINITION. The named operations over memory and registers: bytes of the host space, the per-chip stores, sentinel
acceptance, taking a fault, and the reset input. -/

namespace Sys2Proof.Machine

/-! ### Byte memory -/

/-- What an address with no cell reads as: 0x00, the reset content of `RX` and `TX` (R47). -/
def Memory.unlisted : Byte := 0

/-- The byte at address `a` among rising cells. -/
def readCells (a : Nat) : List Host.Cell → Byte
  | [] => Memory.unlisted
  | (b, u) :: rest => if a = b then u else readCells a rest

/-- A cell for `v` at `a` in front of `rest`, none when `v` is what an unlisted address reads as. -/
def consCell (a : Nat) (v : Byte) (rest : List Host.Cell) : List Host.Cell :=
  if v = Memory.unlisted then rest else (a, v) :: rest

/-- Rising cells with the byte at `a` made `v`. -/
def writeCells (a : Nat) (v : Byte) : List Host.Cell → List Host.Cell
  | [] => consCell a v []
  | (b, u) :: rest =>
      if a < b then consCell a v ((b, u) :: rest)
      else if a = b then consCell a v rest
      else (b, u) :: writeCells a v rest

/-- Every cell lies above `a`'s address, the addresses rise strictly, and no cell holds the unlisted value. -/
def risingAbove : Option Nat → List Host.Cell → Bool
  | _, [] => true
  | low, (b, u) :: rest =>
      (match low with
        | none => true
        | some a => decide (a < b)) && decide (u ≠ Memory.unlisted) && risingAbove (some b) rest

/-- The byte at host address `a`. -/
def Memory.read (m : Memory) (a : Nat) : Byte := readCells a m.cells

/-- The memory with the byte at host address `a` made `v`. -/
def Memory.write (m : Memory) (a : Nat) (v : Byte) : Memory := ⟨writeCells a v m.cells⟩

/-- The canonical form: addresses strictly rising, no cell equal to what an unlisted address reads as. -/
def Memory.wf (m : Memory) : Bool := risingAbove none m.cells

/-- The host address of byte 0 of a buffer (R61). -/
def bufBase : Buf → Nat
  | .rx => 0x000
  | .tx => 0x080

/-- The buffer's size in bytes, `S` of R100 and R126. -/
def bufSize : Buf → Nat
  | .rx => Config.rxSize
  | .tx => Config.txSize

/-- Every cell of the memory is a byte of `RX` or of `TX` (R61). -/
def Memory.inBuffers (m : Memory) : Bool :=
  m.cells.all fun cell =>
    decide (cell.1 < Config.rxSize) ||
      (decide (bufBase .tx ≤ cell.1) && decide (cell.1 < bufBase .tx + Config.txSize))

/-- `RX[i]` or `TX[i]` (R11). -/
def State.bufByte (s : State) (buf : Buf) (i : Nat) : Byte := s.mem.read (bufBase buf + i)

/-- `RX[i] <- v` (R11). -/
def State.rxWrite (s : State) (i : Nat) (v : Byte) : State :=
  { s with mem := s.mem.write (bufBase .rx + i) v }

/-- `TX[i] <- v` (R11). -/
def State.txWrite (s : State) (i : Nat) (v : Byte) : State :=
  { s with mem := s.mem.write (bufBase .tx + i) v }

/-! ### The register stores -/

/-- A chip position below `MAX_CHIPS` (R14). -/
abbrev Chip := Fin Config.maxChips

/-- A cell slot of a chip (R37). -/
abbrev Slot := Fin Config.slots

/-- One element of the register stores (R37 to R42). -/
inductive Store where
  | cellRaw (c : Chip) (k : Slot)
  | tvRaw (c : Chip)
  | auxT1 (c : Chip)
  | aux5v (c : Chip)
  | auxT2 (c : Chip)
  | cfgW0 (c : Chip)
  | cfgW1 (c : Chip)
  | tempRaw (c : Chip)
deriving DecidableEq, Repr

/-- The word a store element holds. -/
def State.getStore (s : State) : Store → Half
  | .cellRaw c k => s.cellRaw[c][k]
  | .tvRaw c => s.tvRaw[c]
  | .auxT1 c => s.auxT1[c]
  | .aux5v c => s.aux5v[c]
  | .auxT2 c => s.auxT2[c]
  | .cfgW0 c => s.cfgW0[c]
  | .cfgW1 c => s.cfgW1[c]
  | .tempRaw c => s.tempRaw[c]

/-- `DEST <- word` for a store element (R11). -/
def State.putStore (s : State) (w : Half) : Store → State
  | .cellRaw c k => { s with cellRaw := s.cellRaw.set c (s.cellRaw[c].set k w) }
  | .tvRaw c => { s with tvRaw := s.tvRaw.set c w }
  | .auxT1 c => { s with auxT1 := s.auxT1.set c w }
  | .aux5v c => { s with aux5v := s.aux5v.set c w }
  | .auxT2 c => { s with auxT2 := s.auxT2.set c w }
  | .cfgW0 c => { s with cfgW0 := s.cfgW0.set c w }
  | .cfgW1 c => { s with cfgW1 := s.cfgW1.set c w }
  | .tempRaw c => { s with tempRaw := s.tempRaw.set c w }

/-- `CELLMV(c, k)` (R38): the millivolts of a slot, the exact rational `raw / 12.5`, not rounded. A derived quantity: no
register holds it. -/
def State.cellMv (s : State) (c : Chip) (k : Slot) : ℚ := (s.cellRaw[c][k].toNat : ℚ) / Config.mvDiv

/-- `accept(word, DEST)` (R163): a sentinel leaves the destination untouched and is not accepted. -/
def State.accept (s : State) (dest : Store) (word : Half) : State × Bool :=
  if word = Config.sentinel then (s, false) else (s.putStore word dest, true)

/-! ### Chip positions -/

/-- All chip positions, in chain order (log 12). -/
def allChips : List Chip := List.finRange Config.maxChips

/-- The chip positions `0 .. CHIPCOUNT-1` in chain order (R150, R190). -/
def State.activeChips (s : State) : List Chip := allChips.filter fun c => decide (c.val < s.chipCount.toNat)

/-! ### Taking a fault, and the reset that ends it -/

/-- `raise Fault(x)` (60_exceptions.md rule R213): the first fault since reset is recorded in `STATUS`; a later one
changes nothing. The caller stops the command or the access, so this is all the effect it has. -/
def State.raiseFault (s : State) (x : Cause) : State :=
  if s.status.err then s else { s with status := { s.status with err := true, cause := x } }

/-- The reset input (R240): every element of the CCU's state to its value in R47, at once. There is no return from a fault
other than this (R219). The host's side, what it has yet to do and what it has read, is not the CCU's (log 2). -/
def State.resetInput (s : State) : State :=
  { State.reset with pending := s.pending, readData := s.readData }

end Sys2Proof.Machine
end

