-- ==== Sys2Proof/Machine/Operands.lean ====
section
/-! DEFINITION. The operand forms of the commands: byte ranges of a buffer, words assembled from `RX`, and the data words of
a reply segment for each register type. -/

namespace Sys2Proof.Machine

/-! ### Byte ranges (R100, R126) -/

/-- `B[OFF], .., B[OFF+LEN-1]` in increasing address order. -/
def State.bufBytes (s : State) (buf : Buf) (off len : Nat) : List Byte :=
  (List.range len).map fun i => s.bufByte buf (off + i)

/-- How many bytes from `B[0]` a CRC14 needs: the residual byte is `B[OFF+LEN]` (R126). -/
def crc14Need (off len nbits : Nat) : Nat := off + len + (if 0 < nbits then 1 else 0)

/-- The residual byte, 0 when no bit of it is folded in (R126). -/
def State.residByte (s : State) (buf : Buf) (off len nbits : Nat) : Byte :=
  if 0 < nbits then s.bufByte buf (off + len) else 0

/-! ### Words from `RX` (R11, R66) -/

/-- `le16(a)`: the byte at the lower address is bits 7:0. -/
def State.le16 (s : State) (a : Nat) : Half := s.bufByte .rx (a + 1) ++ s.bufByte .rx a

/-- `be16(a)`: the byte at the lower address is bits 15:8. -/
def State.be16 (s : State) (a : Nat) : Half := s.bufByte .rx a ++ s.bufByte .rx (a + 1)

/-- The 5V word at `a` of chip `c` (R160): big-endian where `SWAP5V[c] = 1`, else little-endian. -/
def State.word5v (s : State) (c : Chip) (a : Nat) : Half :=
  if s.swap5v.getLsbD c then s.be16 a else s.le16 a

/-! ### Segments (R151) -/

/-- The first byte of data word `k` in chip `c`'s segment of a register type with the given stride. -/
def dataWordAt (stride : Nat) (c : Chip) (k : Nat) : Nat := stride * c + Config.segOff + 2 * k

/-- What a decode command takes from one chip's reply: each word with the store element it goes to, in the order of the
command's pseudocode. -/
abbrev Samples := List (Store × Half)

/-- A cell-voltage register group, by its place in letter order (R153 to R157). -/
abbrev Group := Fin (Config.slots / Config.groupCells)

/-- Group A (R153). -/
def groupA : Group := ⟨0, by decide⟩

/-- Group B (R154). -/
def groupB : Group := ⟨1, by decide⟩

/-- Group C (R155). -/
def groupC : Group := ⟨2, by decide⟩

/-- Group D (R156). -/
def groupD : Group := ⟨3, by decide⟩

/-- Group E (R157). -/
def groupE : Group := ⟨4, by decide⟩

/-- The slot of word `k` of a group: the groups take the slots in letter order (R153 to R157). -/
def slotOf (g : Group) (k : Fin Config.groupCells) : Slot :=
  ⟨Config.groupCells * g + k, by
    have hg : g.val + 1 ≤ Config.slots / Config.groupCells := g.isLt
    calc Config.groupCells * g.val + k.val
        < Config.groupCells * (g.val + 1) := by rw [Nat.mul_succ]; exact Nat.add_lt_add_left k.isLt _
      _ ≤ Config.groupCells * (Config.slots / Config.groupCells) := Nat.mul_le_mul_left _ hg
      _ ≤ Config.slots := Nat.mul_div_le _ _⟩

/-- The words of a cell-voltage segment, each into its slot of the group (R153 to R157). -/
def State.cellSamples (s : State) (g : Group) (c : Chip) : Samples :=
  (List.finRange Config.groupCells).map fun k =>
    (.cellRaw c (slotOf g k), s.le16 (dataWordAt Config.strideCv c k))

/-- The total-voltage word (R158). -/
def State.tvSamples (s : State) (c : Chip) : Samples :=
  [(.tvRaw c, s.le16 (dataWordAt Config.strideTv c Config.tvWord))]

/-- The three auxiliary words (R159); only the 5V word is ever byte-reversed. -/
def State.auxSamples (s : State) (c : Chip) : Samples :=
  [ (.auxT1 c, s.le16 (dataWordAt Config.strideAux c 0)),
    (.aux5v c, s.word5v c (dataWordAt Config.strideAux c 1)),
    (.auxT2 c, s.le16 (dataWordAt Config.strideAux c 2)) ]

/-- The two configuration words (R161). -/
def State.cfgSamples (s : State) (c : Chip) : Samples :=
  [ (.cfgW0 c, s.le16 (dataWordAt Config.strideCfg c 0)),
    (.cfgW1 c, s.le16 (dataWordAt Config.strideCfg c 1)) ]

/-- The chip's word of the temperature-only response (R162): every 4th 16-bit word of `RX` from word 1. -/
def State.tempSamples (s : State) (c : Chip) : Samples :=
  [(.tempRaw c, s.le16 (2 * (Config.tempFirstW + Config.tempStrideW * c)))]

end Sys2Proof.Machine
end

