-- ==== Sys2Proof/Machine/Flags.lean ====
section
/-! DEFINITION. The flag-like state: the `STATUS` word, the alternation phase and its pattern, and `VALIDMAP` (R24, R27, R30).
The CCU has no arithmetic flags (R45). -/

namespace Sys2Proof.Machine

/-- The code of a cause (60_exceptions.md rule R211). -/
def Cause.code : Cause → BitVec 4
  | .none => 0
  | .illegalCmd => 1
  | .range => 2
  | .access => 3
  | .chipCountValue => 4

/-- The phase as `STATUS.PHASE` shows it: 0 is EVEN, 1 is ODD (R27). -/
def phaseBit : Phase → Bool
  | .even => false
  | .odd => true

/-- The 32-bit `STATUS` register (R24): ERR in bit 0, CAUSE in bits 7:4, PHASE in bit 8, every other bit hard-wired 0. -/
def Status.word (st : Status) : Word :=
  (BitVec.ofBool st.err).setWidth 32 ||| (st.cause.code.setWidth 32 <<< 4)
    ||| ((BitVec.ofBool (phaseBit st.phase)).setWidth 32 <<< 8)

/-- The pattern a phase selects (43_codec_encode.md rule R191). -/
def phasePattern : Phase → Byte
  | .even => Config.patEven
  | .odd => Config.patOdd

/-- The inverted phase (R194). -/
def otherPhase : Phase → Phase
  | .even => .odd
  | .odd => .even

/-- `STATUS.PHASE <- ~STATUS.PHASE` (R194). -/
def State.invertPhase (s : State) : State :=
  { s with status := { s.status with phase := otherPhase s.status.phase } }

/-- `v[c] <- 1` for the new `VALIDMAP` (R150). -/
def markChip (v : Byte) (c : Chip) : Byte := v ||| (1 <<< c.val)

end Sys2Proof.Machine
end

