-- ==== Sys2Proof/Machine/Crc.lean ====
section
/-! DEFINITION. The two checksum functions as pure functions of their arguments: `crc8` (40_crc8.md rule R101) and `crc14`
(41_crc14.md rules R120 to R125). -/

namespace Sys2Proof.Machine

/-- `crc8(bytes)` (R101): `acc = T8[acc ^ b]` for each byte in address order, from `CRC8_SEED`, no final XOR. -/
def crc8 (bytes : List Byte) : Byte := bytes.foldl (fun acc b => Config.t8 (acc ^^^ b)) Config.crc8Seed

/-- `byte_step(acc, b)` (R123): the top 8 bits of the accumulator against the byte index the table. -/
def byteStep (acc : Crc) (b : Byte) : Crc := (acc <<< 8) ^^^ Config.t14 ((acc >>> 6).setWidth 8 ^^^ b)

/-- `bit_step(acc, v)` (R124): one turn of the polynomial-shift loop. -/
def bitStep (acc : Crc) (v : Bool) : Crc :=
  if acc.getLsbD 13 ^^ v then (acc <<< 1) ^^^ Config.crc14Poly else acc <<< 1

/-- The bits of the residual byte that the bit phase folds in, in order (R120, R124). -/
def residBits (r : Byte) (n : Nat) : List Bool := (List.range n).map fun k => r.getLsbD (Config.residBit k)

/-- `crc14(init, bytes, n, r)` (R120): the byte phase, then the bit phase, on one accumulator (R125). -/
def crc14 (init : Crc) (bytes : List Byte) (n : Nat) (r : Byte) : Crc :=
  (residBits r n).foldl bitStep (bytes.foldl byteStep init)

/-- `CRC14_INIT[13:0]`, the seed of CRC14 and ENC.CFG (R31). -/
def State.crcSeed (s : State) : Crc := s.crc14Init.setWidth 14

end Sys2Proof.Machine
end

