-- ==== Sys2Proof/Machine/Checksum.lean ====
section
/-! DEFINITION. The meanings of the checksum commands CRC8 (40_crc8.md rule R100) and CRC14 (41_crc14.md rule R126). The
word is already decoded, and `STATUS.ERR = 0` was checked where commands are issued (`execute`; log 11). -/

namespace Sys2Proof.Machine

/-- CRC8 (R100): RANGE if `OFF + LEN` passes the end of the buffer, else the checksum of the range into `CRC8_RES`. -/
def execCrc8 (buf : Buf) (off len : Nat) (s : State) : Host.Outcome State Fault Refusal :=
  if bufSize buf < off + len then .next (s.raiseFault .range)
  else .next { s with crc8Res := crc8 (s.bufBytes buf off len) }

/-- CRC14 (R126): RANGE if the bytes needed pass the end of the buffer, else the checksum of the range and of the residual
bits, seeded from `CRC14_INIT`, zero-extended into `CRC14_RES`. -/
def execCrc14 (buf : Buf) (off len nbits : Nat) (s : State) : Host.Outcome State Fault Refusal :=
  if bufSize buf < crc14Need off len nbits then .next (s.raiseFault .range)
  else
    .next { s with
      crc14Res :=
        (crc14 s.crcSeed (s.bufBytes buf off len) nbits (s.residByte buf off len nbits)).setWidth 16 }

end Sys2Proof.Machine
end

