-- ==== Sys2Proof/Machine/CodecDecode.lean ====
section
/-! DEFINITION. The meanings of the decode commands DEC.* (42_codec_decode.md): one shared loop (R150), one list of
words for each register type (`Operands`). No decode checks a checksum (R164) and none can fault (R165). -/

namespace Sys2Proof.Machine

/-- Accepts a chip's words in order; the flag says whether at least one was accepted (R150, R163). -/
def acceptAll (samples : Samples) (s : State) : State × Bool :=
  samples.foldl
    (fun acc sample => ((acc.1.accept sample.1 sample.2).1, acc.2 || (acc.1.accept sample.1 sample.2).2))
    (s, false)

/-- One turn of the loop of R150: chip `c`'s words, and its bit of the new `VALIDMAP`. -/
def decodeChip (samples : Chip → Samples) (acc : State × Byte) (c : Chip) : State × Byte :=
  ((acceptAll (samples c) acc.1).1,
    if (acceptAll (samples c) acc.1).2 then markChip acc.2 c else acc.2)

/-- The loop of R150 over the chip positions below `CHIPCOUNT`, then `VALIDMAP <- v` (R152). The words are those of
the state the command starts in: no command writes `RX` (R35; log 16). -/
def decodeLoop (samples : Chip → Samples) (s : State) : State :=
  { (s.activeChips.foldl (decodeChip samples) (s, 0)).1 with
    validMap := (s.activeChips.foldl (decodeChip samples) (s, 0)).2 }

/-- DEC.CVA (R153): cell-voltage group A into slots 0, 1, 2. -/
def execDecCva (s : State) : Host.Outcome State Fault Refusal := .next (decodeLoop (s.cellSamples groupA) s)

/-- DEC.CVB (R154): cell-voltage group B into slots 3, 4, 5. -/
def execDecCvb (s : State) : Host.Outcome State Fault Refusal := .next (decodeLoop (s.cellSamples groupB) s)

/-- DEC.CVC (R155): cell-voltage group C into slots 6, 7, 8. -/
def execDecCvc (s : State) : Host.Outcome State Fault Refusal := .next (decodeLoop (s.cellSamples groupC) s)

/-- DEC.CVD (R156): cell-voltage group D into slots 9, 10, 11. -/
def execDecCvd (s : State) : Host.Outcome State Fault Refusal := .next (decodeLoop (s.cellSamples groupD) s)

/-- DEC.CVE (R157): cell-voltage group E into slots 12, 13, 14. -/
def execDecCve (s : State) : Host.Outcome State Fault Refusal := .next (decodeLoop (s.cellSamples groupE) s)

/-- DEC.TV (R158): the total chip voltage. -/
def execDecTv (s : State) : Host.Outcome State Fault Refusal := .next (decodeLoop s.tvSamples s)

/-- DEC.AUX (R159): temperature 1, the 5V word, temperature 2. -/
def execDecAux (s : State) : Host.Outcome State Fault Refusal := .next (decodeLoop s.auxSamples s)

/-- DEC.CFG (R161): configuration words 0 and 1. -/
def execDecCfg (s : State) : Host.Outcome State Fault Refusal := .next (decodeLoop s.cfgSamples s)

/-- DEC.TEMP (R162): the temperature-only response. -/
def execDecTemp (s : State) : Host.Outcome State Fault Refusal := .next (decodeLoop s.tempSamples s)

end Sys2Proof.Machine
end

