-- ==== Sys2Proof/Machine/CodecEncode.lean ====
section
/-! DEFINITION. The meaning of the configuration-write command ENC.CFG (43_codec_encode.md rules R190 to R194). -/

namespace Sys2Proof.Machine

/-- The first byte of chip `c`'s frame in `TX` (R192). -/
def frameAt (c : Chip) : Nat := Config.frameSize * c

/-- Bytes 0 to 3 of chip `c`'s frame (R190, R192): address, 0x00, and the masked balance bits, low byte first. -/
def State.writePayload (s : State) (pattern : Byte) (c : Chip) : State :=
  (((s.txWrite (frameAt c) Config.cfgAddr).txWrite (frameAt c + 1) Config.cfgByte1).txWrite (frameAt c + 2)
    (s.balMask[c].setWidth 8 &&& pattern)).txWrite (frameAt c + 3) ((s.balMask[c] >>> 8).setWidth 8 &&& pattern)

/-- The checksum of the frame's four bytes as they stand in `TX`, zero-extended (R193). -/
def State.frameCrc (s : State) (c : Chip) : Half :=
  (crc14 s.crcSeed (s.bufBytes .tx (frameAt c) 4) 0 0).setWidth 16

/-- Bytes 4 and 5 of chip `c`'s frame: the checksum, little-endian (R67, R193). -/
def State.writeFrameCrc (s : State) (c : Chip) : State :=
  (s.txWrite (frameAt c + 4) ((s.frameCrc c).setWidth 8)).txWrite (frameAt c + 5) ((s.frameCrc c >>> 8).setWidth 8)

/-- Chip `c`'s whole frame (R190). -/
def writeFrame (pattern : Byte) (s : State) (c : Chip) : State := (s.writePayload pattern c).writeFrameCrc c

/-- ENC.CFG (R190): the frame of every chip position below `CHIPCOUNT` under the phase's pattern, then the phase is
inverted, also when there is no chip. -/
def execEncCfg (s : State) : Host.Outcome State Fault Refusal :=
  .next (s.activeChips.foldl (writeFrame (phasePattern s.status.phase)) s).invertPhase

end Sys2Proof.Machine
end

