-- ==== Sys2Proof/Machine/Dispatch.lean ====
section
/-! DEFINITION. Which meaning each instruction has (30_encoding.md rule R92): one arm for each constructor. -/

namespace Sys2Proof.Machine

def exec (i : Instr) (s : State) : Host.Outcome State Fault Refusal :=
  match i with
  | .crc8 buf off len => Sys2Proof.Machine.execCrc8 buf off len s
  | .crc14 buf off len nbits => Sys2Proof.Machine.execCrc14 buf off len nbits s
  | .decCva => Sys2Proof.Machine.execDecCva s
  | .decCvb => Sys2Proof.Machine.execDecCvb s
  | .decCvc => Sys2Proof.Machine.execDecCvc s
  | .decCvd => Sys2Proof.Machine.execDecCvd s
  | .decCve => Sys2Proof.Machine.execDecCve s
  | .decTv => Sys2Proof.Machine.execDecTv s
  | .decAux => Sys2Proof.Machine.execDecAux s
  | .decCfg => Sys2Proof.Machine.execDecCfg s
  | .decTemp => Sys2Proof.Machine.execDecTemp s
  | .encCfg => Sys2Proof.Machine.execEncCfg s

end Sys2Proof.Machine
end

