-- ==== Sys2Proof/Machine/HostMap.lean ====
section
/-! DEFINITION. The host space (20_memory.md rules R60 to R65): the elements, their addresses and widths, which accesses are
admitted, and what the host reads. -/

namespace Sys2Proof.Machine

/-- The width of an access or of an element, 1, 2 or 4 bytes (R62). -/
inductive Width where
  | w8
  | w16
  | w32
deriving DecidableEq, Repr

/-- The width in bytes. -/
def Width.bytes : Width → Nat
  | .w8 => 1
  | .w16 => 2
  | .w32 => 4

/-- An element of the host space: a row of R61's map with its index. -/
inductive Elem where
  | rx (i : Fin Config.rxSize)
  | tx (i : Fin Config.txSize)
  | cmd
  | status
  | chipCount
  | swap5v
  | validMap
  | crc8Res
  | crc14Res
  | crc14Init
  | balMask (c : Chip)
  | store (d : Store)
deriving DecidableEq, Repr

/-- The bytes that the cells of one chip take in the host space: 30 (R37, R61). -/
abbrev chipCellBytes : Nat := 2 * Config.slots

/-- The bytes of an array of one 16-bit word for each chip: 16 (R61). -/
abbrev chipWordBytes : Nat := 2 * Config.maxChips

/-- The host address of a store element (R37 to R42, R61). -/
def Store.addr : Store → Nat
  | .cellRaw c k => 0x200 + chipCellBytes * c + 2 * k
  | .tvRaw c => 0x300 + 2 * c
  | .auxT1 c => 0x310 + 2 * c
  | .aux5v c => 0x320 + 2 * c
  | .auxT2 c => 0x330 + 2 * c
  | .cfgW0 c => 0x340 + 2 * c
  | .cfgW1 c => 0x350 + 2 * c
  | .tempRaw c => 0x360 + 2 * c

/-- The host address of an element (R61). -/
def Elem.addr : Elem → Nat
  | .rx i => bufBase .rx + i
  | .tx i => bufBase .tx + i
  | .cmd => 0x100
  | .status => 0x104
  | .chipCount => 0x108
  | .swap5v => 0x109
  | .validMap => 0x10A
  | .crc8Res => 0x10B
  | .crc14Res => 0x10C
  | .crc14Init => 0x10E
  | .balMask c => 0x110 + 2 * c
  | .store d => d.addr

/-- The width of an element (R61). -/
def Elem.width : Elem → Width
  | .rx _ => .w8
  | .tx _ => .w8
  | .cmd => .w32
  | .status => .w32
  | .chipCount => .w8
  | .swap5v => .w8
  | .validMap => .w8
  | .crc8Res => .w8
  | .crc14Res => .w16
  | .crc14Init => .w16
  | .balMask _ => .w16
  | .store _ => .w16

/-- The element of an array of one 16-bit word for each chip at `base` that starts at address `a`. -/
def chipWordAt (base : Nat) (mk : Chip → Elem) (a : Nat) : Option Elem :=
  if h : base ≤ a ∧ a < base + chipWordBytes ∧ (a - base) % 2 = 0 then
    some (mk ⟨(a - base) / 2, by simp only [chipWordBytes] at h; omega⟩)
  else none

/-- The element of `CELLRAW` that starts at address `a`. -/
def cellRawAt (a : Nat) : Option Elem :=
  if h : 0x200 ≤ a ∧ a < 0x200 + chipCellBytes * Config.maxChips ∧ (a - 0x200) % 2 = 0 then
    some (.store (.cellRaw ⟨(a - 0x200) / chipCellBytes, by
        simp only [chipCellBytes, Config.slots, Config.maxChips] at *; omega⟩
      ⟨(a - 0x200) % chipCellBytes / 2, by simp only [chipCellBytes, Config.slots] at *; omega⟩))
  else none

/-- The element of a buffer that starts at address `a`. -/
def bufferAt (a : Nat) : Option Elem :=
  if h : a < Config.rxSize then some (.rx ⟨a, h⟩)
  else if h : bufBase .tx ≤ a ∧ a < bufBase .tx + Config.txSize then some (.tx ⟨a - bufBase .tx, by omega⟩)
  else none

/-- The control or status register that starts at address `a`. -/
def controlAt (a : Nat) : Option Elem :=
  if a = 0x100 then some .cmd
  else if a = 0x104 then some .status
  else if a = 0x108 then some .chipCount
  else if a = 0x109 then some .swap5v
  else if a = 0x10A then some .validMap
  else if a = 0x10B then some .crc8Res
  else if a = 0x10C then some .crc14Res
  else if a = 0x10E then some .crc14Init
  else none

/-- The element of R61's map that starts at address `a`, if one does. -/
def elemAt (a : Nat) : Option Elem :=
  bufferAt a <|> controlAt a <|> chipWordAt 0x110 .balMask a <|> cellRawAt a
    <|> chipWordAt 0x300 (fun c => .store (.tvRaw c)) a
    <|> chipWordAt 0x310 (fun c => .store (.auxT1 c)) a
    <|> chipWordAt 0x320 (fun c => .store (.aux5v c)) a
    <|> chipWordAt 0x330 (fun c => .store (.auxT2 c)) a
    <|> chipWordAt 0x340 (fun c => .store (.cfgW0 c)) a
    <|> chipWordAt 0x350 (fun c => .store (.cfgW1 c)) a
    <|> chipWordAt 0x360 (fun c => .store (.tempRaw c)) a

/-- The element an access of width `n` at `a` is admitted to (R62): an element starts at `a`, has that width, and `a`
is a multiple of it. -/
def admitted (n : Width) (a : Addr) : Option Elem :=
  (elemAt a.toNat).filter fun e => decide (e.width = n) && decide (a.toNat % n.bytes = 0)

/-- The value the host reads from an element, zero-extended to 32 bits (R65; log 3). -/
def readElem (s : State) : Elem → Word
  | .rx i => (s.bufByte .rx i).setWidth 32
  | .tx i => (s.bufByte .tx i).setWidth 32
  | .cmd => s.cmd
  | .status => s.status.word
  | .chipCount => s.chipCount.setWidth 32
  | .swap5v => s.swap5v.setWidth 32
  | .validMap => s.validMap.setWidth 32
  | .crc8Res => s.crc8Res.setWidth 32
  | .crc14Res => s.crc14Res.setWidth 32
  | .crc14Init => s.crc14Init.setWidth 32
  | .balMask c => s.balMask[c].setWidth 32
  | .store d => (s.getStore d).setWidth 32

/-- A host read (R62, R63, R68): the element's value and no other effect, or an ACCESS fault that returns 0. -/
def hostRead (n : Width) (a : Addr) (s : State) : State :=
  match admitted n a with
  | some e => { s with readData := readElem s e }
  | none => { s.raiseFault .access with readData := 0 }

end Sys2Proof.Machine
end

