-- ==== Sys2Proof/Machine/HostAccess.lean ====
section
/-! DEFINITION. What a host access does (20_memory.md rules R62 to R68), with the write to `CMD` that issues a command (R23,
R92), and the host's list of accesses to come. -/

namespace Sys2Proof.Machine

/-- `execute(w)` (30_encoding.md rule R92): nothing while `STATUS.ERR = 1` (R214); else the command the word selects, or
the fault ILLEGAL_CMD when it selects none (R86, R212). -/
def execute (w : Word) (s : State) : Host.Outcome State Fault Refusal :=
  if s.status.err then .next s
  else
    match decode w with
    | .ok i => exec i s
    | .error _ => .next (s.raiseFault .illegalCmd)

/-- A host write of `w` to `CMD` (R23): no effect at all while `STATUS.ERR = 1`; else `w` is stored and executed. -/
def writeCmd (w : Word) (s : State) : Host.Outcome State Fault Refusal :=
  if s.status.err then .next s else execute w { s with cmd := w }

/-- A host write of `v` to `CHIPCOUNT` (R28): above `MAX_CHIPS` it is the fault CHIPCOUNT_VALUE. -/
def writeChipCount (v : Byte) (s : State) : State :=
  if Config.maxChips < v.toNat then s.raiseFault .chipCountValue else { s with chipCount := v }

/-- A host write to the element it was admitted to. The value's low bits are as many as the element is wide. A write to a
read-only element is an ACCESS fault (R64). -/
def writeElem (v : Word) (s : State) : Elem → Host.Outcome State Fault Refusal
  | .rx i => .next (s.rxWrite i (v.setWidth 8))
  | .cmd => writeCmd v s
  | .chipCount => .next (writeChipCount (v.setWidth 8) s)
  | .swap5v => .next { s with swap5v := v.setWidth 8 }
  | .crc14Init => .next { s with crc14Init := v.setWidth 16 &&& Config.crc14Mask }
  | .balMask c => .next { s with balMask := s.balMask.set c (v.setWidth 16) }
  | .tx _ => .next (s.raiseFault .access)
  | .status => .next (s.raiseFault .access)
  | .validMap => .next (s.raiseFault .access)
  | .crc8Res => .next (s.raiseFault .access)
  | .crc14Res => .next (s.raiseFault .access)
  | .store _ => .next (s.raiseFault .access)

/-- A host write of width `n` (R62, R63, R216): admission first, then what the element's own rule says. -/
def hostWrite (n : Width) (a : Addr) (v : Word) (s : State) : Host.Outcome State Fault Refusal :=
  match admitted n a with
  | some e => writeElem v s e
  | none => .next (s.raiseFault .access)

/-- One item of the host's list. -/
def perform (op : HostOp) (s : State) : Host.Outcome State Fault Refusal :=
  match op with
  | .rd8 a => .next (hostRead .w8 a s)
  | .rd16 a => .next (hostRead .w16 a s)
  | .rd32 a => .next (hostRead .w32 a s)
  | .wr8 a v => hostWrite .w8 a (v.setWidth 32) s
  | .wr16 a v => hostWrite .w16 a (v.setWidth 32) s
  | .wr32 a v => hostWrite .w32 a v s
  | .reset => .next s.resetInput

/-- The host's next access, taken off its list and performed whole (R69, R71). With nothing to do, the state holds
(R226; log 1). -/
def hostStep (s : State) : Host.Outcome State Fault Refusal :=
  match s.pending with
  | [] => .next s
  | op :: rest => perform op { s with pending := rest }

/-- The host address of `CMD` (R23). -/
def cmdAddr : Addr := 0x100

/-- The state in which a write of `w` to `CMD` is the host's next access. -/
def State.issue (s : State) (w : Word) : State := { s with pending := .wr32 cmdAddr w :: s.pending }

end Sys2Proof.Machine
end

