-- ==== Sys2Proof/Machine/Step.lean ====
section
/-! DEFINITION. One step of the machine: the host's next access, with the command it issues. -/

namespace Sys2Proof.Machine

/-- One step (20_memory.md rule R71). -/
def step (s : State) : Host.Outcome State Fault Refusal := hostStep s

/-- The state in which the very next step delivers the table word to `CMD` (R21, R23: a command is delivered whole by
one host write to `CMD`; log 1). -/
def State.withFetchWord (s : State) (nbits w : Nat) : State := s.issue (tableWord nbits w)

end Sys2Proof.Machine
end

