-- ==== Sys2Proof/Machine/Assembler.lean ====
section
/-! DEFINITION. The assembler lines of 30_encoding.md rules R88 and R89 and the host access each stands for. A line whose
operand is outside its field is rejected (R88). -/

namespace Sys2Proof.Machine

/-- A line of a program (R88, R89). -/
inductive AsmLine where
  /-- A bare command, or `cmd X` (R89). -/
  | command (i : Instr)
  /-- `crc14 rx|tx, OFF, LEN` with three operands (R89). -/
  | crc14Short (buf : Buf) (off len : Nat)
  /-- `setcc N` (R89). -/
  | setcc (n : Nat)
  /-- `setinit V` (R89). -/
  | setinit (v : Nat)
  /-- `setbal C, V` (R89; log 18 for a `C` that names no chip). -/
  | setbal (c v : Nat)
  /-- `wr8 A, V` .. `rd32 A` (R88), written out. -/
  | access (op : HostOp)
deriving DecidableEq, Repr

/-- `wr32 0x100, <word of X>` (R89), for an instruction whose operands fit. -/
def assembleCommand (i : Instr) : Option HostOp :=
  if i.wellFormed then some (.wr32 cmdAddr (encode i)) else none

/-- The host access a line stands for, none where the assembler rejects an operand (R88, R89; log 15).
DESIGN CHOICE (log 18): R89 puts no bound on the `C` of `setbal`, so the line is expanded as printed for every `C` whose
address lies in the host space, also for a `C` of 8 or more, which names no chip and is an ACCESS fault at the CCU; a `C`
whose address lies outside the host space is rejected. -/
def assemble : AsmLine → Option HostOp
  | .command i => assembleCommand i
  | .crc14Short buf off len => assembleCommand (.crc14 buf off len 0)
  | .setcc n => if n < 2 ^ 8 then some (.wr8 0x108 (BitVec.ofNat 8 n)) else none
  | .setinit v => if v < 2 ^ 16 then some (.wr16 0x10E (BitVec.ofNat 16 v)) else none
  | .setbal c v =>
      if 0x110 + 2 * c < 2 ^ 11 ∧ v < 2 ^ 16 then
        some (.wr16 (BitVec.ofNat 11 (0x110 + 2 * c)) (BitVec.ofNat 16 v))
      else none
  | .access op => some op

/-- A buffer as the syntax spells it (R88). -/
def bufText : Buf → String
  | .rx => "rx"
  | .tx => "tx"

/-- An instruction as the syntax of R88 spells it. -/
def asmText : Instr → String
  | .crc8 buf off len => "crc8 " ++ bufText buf ++ ", " ++ toString off ++ ", " ++ toString len
  | .crc14 buf off len nbits =>
      "crc14 " ++ bufText buf ++ ", " ++ toString off ++ ", " ++ toString len ++ ", " ++ toString nbits
  | .decCva => "dec.cva"
  | .decCvb => "dec.cvb"
  | .decCvc => "dec.cvc"
  | .decCvd => "dec.cvd"
  | .decCve => "dec.cve"
  | .decTv => "dec.tv"
  | .decAux => "dec.aux"
  | .decCfg => "dec.cfg"
  | .decTemp => "dec.temp"
  | .encCfg => "enc.cfg"

end Sys2Proof.Machine
end

