-- ==== Sys2Proof/Safety.lean ====
section
/-! DEFINITION. What counts as a safe state and a safe run of the CCU, in the terms statements use: the invariant of the
registers, the fault-free condition, and the host's boot duties (70_reset_and_hazards.md rule R242). -/

namespace Sys2Proof.Machine

/-- `CAUSE` reads NONE exactly while `ERR = 0` (R26). -/
def Status.ok (st : Status) : Bool := decide (st.cause = .none) == !st.err

/-- The invariant of the machine's state: the byte memory is canonical and holds bytes of `RX` and `TX` only; `CHIPCOUNT`
is at most 8 (R28); bits 15:14 of `CRC14_INIT` and `CRC14_RES` are 0 (R31, R34); `CAUSE` agrees with `ERR` (R26). -/
def State.ok (s : State) : Bool :=
  s.mem.wf && s.mem.inBuffers && decide (s.chipCount.toNat ≤ Config.maxChips)
    && decide (s.crc14Init.toNat < 2 ^ 14) && decide (s.crc14Res.toNat < 2 ^ 14) && s.status.ok

/-- No store element holds the sentinel (R163). -/
def State.noSentinel (s : State) : Prop := ∀ d : Store, s.getStore d ≠ Config.sentinel

/-- The balance bits of chip `c`'s frame as they stand in `TX`: `{TX[6c+3], TX[6c+2]}` (R195). -/
def State.frameMask (s : State) (c : Chip) : Half :=
  s.bufByte .tx (6 * c + 3) ++ s.bufByte .tx (6 * c + 2)

/-- Two slot-adjacent cells are never commanded to bleed in the frame of chip `c` (R195). -/
def State.noAdjacentCells (s : State) (c : Chip) : Prop :=
  s.frameMask c &&& (s.frameMask c >>> 1) = 0

/-- No fault has been recorded since reset (R25). -/
def State.faultFree (s : State) : Prop := s.status.err = false

/-- The host has done steps 1 and 2 of R242: the number of chips is `boards * 2` and `CRC14_INIT` holds `CFG_CRC14_SEED`. -/
def State.booted (s : State) (boards : Nat) : Prop :=
  s.chipCount.toNat = boards * 2 ∧ s.crc14Init = Config.cfgCrc14Seed.setWidth 16

/-- The accesses with which a host boots the block (R242): `CHIPCOUNT`, `CRC14_INIT`, `SWAP5V`. -/
def bootOps (boards : Nat) (swap : Byte) : List HostOp :=
  [.wr8 0x108 (BitVec.ofNat 8 (boards * 2)), .wr16 0x10E (Config.cfgCrc14Seed.setWidth 16), .wr8 0x109 swap]

end Sys2Proof.Machine
end

