-- ==== Sys2Proof/Certificates/Slice0/Obligations.lean ====
section
/-! DEFINITION. The statements for the provers. Each formalises a rule of spec/ or follows from the sections its entry in
OBLIGATIONS.json cites. Where a literal of the spec stands here, it is written out and not taken from Config, so that
a wrong constant of the model makes the statement false. -/

namespace Sys2Proof.Machine

/-! ### Words the statements use -/

/-- The masks and matches of 30_encoding.md rule R85, in the table's order. -/
def printedRows : List (Word × Word) :=
  [ (0xFFFF0080, 0x10000000), (0xFFF80080, 0x20000000), (0xFFFFFFFF, 0x30000000), (0xFFFFFFFF, 0x31000000),
    (0xFFFFFFFF, 0x32000000), (0xFFFFFFFF, 0x33000000), (0xFFFFFFFF, 0x34000000), (0xFFFFFFFF, 0x35000000),
    (0xFFFFFFFF, 0x36000000), (0xFFFFFFFF, 0x37000000), (0xFFFFFFFF, 0x38000000), (0xFFFFFFFF, 0x40000000) ]

/-- The word matches no row of R85. -/
def matchesNoRow (w : Word) : Prop := ∀ r ∈ printedRows, w &&& r.1 ≠ r.2

/-- The operation field of a word, bits 31:28 (R81). -/
def opOf (w : Word) : Nat := (w >>> 28).toNat

/-- The register-type field of a word, bits 27:24 (R81). -/
def subOf (w : Word) : Nat := (w >>> 24 &&& 0xF).toNat

/-- `STATUS` after a fault with the given cause: only the first since reset is recorded (R213). -/
def recordedStatus (st : Status) (x : Cause) : Status := if st.err then st else ⟨true, x, st.phase⟩

/-- The host read of a width. -/
def readOp : Width → Addr → HostOp
  | .w8, a => .rd8 a
  | .w16, a => .rd16 a
  | .w32, a => .rd32 a

/-- The host write of a width; the value's low bits are written. -/
def writeOp : Width → Addr → Word → HostOp
  | .w8, a, v => .wr8 a (v.setWidth 8)
  | .w16, a, v => .wr16 a (v.setWidth 16)
  | .w32, a, v => .wr32 a v

/-- The element has this address and width, and in every state a host read there returns the value of `v`, zero-extended
to 32 bits, and changes nothing else. -/
def ReadsAs (e : Elem) (n : Width) (a : Nat) (v : State → Word) : Prop :=
  e.addr = a ∧ e.width = n ∧
    ∀ (s : State) (rest : List HostOp), s.pending = readOp n (BitVec.ofNat 11 a) :: rest →
      step s = .next { s with pending := rest, readData := v s }

/-- The elements R64 lists as read-only. -/
def hostReadOnly (e : Elem) : Prop :=
  (∃ i, e = .tx i) ∨ e = .status ∨ e = .validMap ∨ e = .crc8Res ∨ e = .crc14Res ∨ ∃ d, e = .store d

/-- The writes R68 calls idempotent: to `RX`, `CHIPCOUNT` with a legal value, `SWAP5V`, `CRC14_INIT`, `BALMASK`. -/
def idempotentWrite (op : HostOp) : Prop :=
  (∃ i v, i < 75 ∧ op = .wr8 (BitVec.ofNat 11 i) v) ∨ (∃ v : Byte, v.toNat ≤ 8 ∧ op = .wr8 0x108 v) ∨
    (∃ v, op = .wr8 0x109 v) ∨ (∃ v, op = .wr16 0x10E v) ∨
    ∃ (c : Chip) (v : Half), op = .wr16 (BitVec.ofNat 11 (0x110 + 2 * c)) v

/-- The buffer sizes of R100 and R126. -/
def printedSize : Buf → Nat
  | .rx => 75
  | .tx => 48

/-- The bytes `B[OFF], .., B[OFF+LEN-1]` (R100, R126). -/
def rangeBytes (s : State) (buf : Buf) (off len : Nat) : List Byte :=
  (List.range len).map fun i => s.bufByte buf (off + i)

/-- The nine decode commands. -/
def decodeCommands : List Instr :=
  [.decCva, .decCvb, .decCvc, .decCvd, .decCve, .decTv, .decAux, .decCfg, .decTemp]

/-- The five cell-voltage commands with the first slot of their group (R153 to R157). -/
def cellGroups : List (Instr × Nat) :=
  [(.decCva, 0), (.decCvb, 3), (.decCvc, 6), (.decCvd, 9), (.decCve, 12)]

/-- The words of a cell-voltage segment (R153 to R157). -/
def cellWords (s : State) (c : Chip) : List Half := [s.le16 (9 * c + 1), s.le16 (9 * c + 3), s.le16 (9 * c + 5)]

/-- The words a decode command reads for a chip, by the addresses its rule gives (R153 to R162). -/
def replyWords (s : State) (c : Chip) : Instr → List Half
  | .decCva => cellWords s c
  | .decCvb => cellWords s c
  | .decCvc => cellWords s c
  | .decCvd => cellWords s c
  | .decCve => cellWords s c
  | .decTv => [s.le16 (7 * c + 1)]
  | .decAux =>
      [s.le16 (9 * c + 1), if s.swap5v.getLsbD c then s.be16 (9 * c + 3) else s.le16 (9 * c + 3), s.le16 (9 * c + 5)]
  | .decCfg => [s.le16 (7 * c + 1), s.le16 (7 * c + 3)]
  | .decTemp => [s.le16 (8 * c + 2)]
  | .crc8 _ _ _ => []
  | .crc14 _ _ _ _ => []
  | .encCfg => []

/-- The store elements those words go to, in the same order (R153 to R162). -/
def replyStores (c : Chip) : Instr → List Store
  | .decCva => [.cellRaw c 0, .cellRaw c 1, .cellRaw c 2]
  | .decCvb => [.cellRaw c 3, .cellRaw c 4, .cellRaw c 5]
  | .decCvc => [.cellRaw c 6, .cellRaw c 7, .cellRaw c 8]
  | .decCvd => [.cellRaw c 9, .cellRaw c 10, .cellRaw c 11]
  | .decCve => [.cellRaw c 12, .cellRaw c 13, .cellRaw c 14]
  | .decTv => [.tvRaw c]
  | .decAux => [.auxT1 c, .aux5v c, .auxT2 c]
  | .decCfg => [.cfgW0 c, .cfgW1 c]
  | .decTemp => [.tempRaw c]
  | .crc8 _ _ _ => []
  | .crc14 _ _ _ _ => []
  | .encCfg => []

/-- The `RX` bytes those words are made of. -/
def replyBytes (c : Chip) : Instr → List Nat
  | .decCva => List.range' (9 * c + 1) 6
  | .decCvb => List.range' (9 * c + 1) 6
  | .decCvc => List.range' (9 * c + 1) 6
  | .decCvd => List.range' (9 * c + 1) 6
  | .decCve => List.range' (9 * c + 1) 6
  | .decTv => List.range' (7 * c + 1) 2
  | .decAux => List.range' (9 * c + 1) 6
  | .decCfg => List.range' (7 * c + 1) 4
  | .decTemp => List.range' (8 * c + 2) 2
  | .crc8 _ _ _ => []
  | .crc14 _ _ _ _ => []
  | .encCfg => []

/-- What a chip's word makes of its destination when the command runs on the chip (R150, R163). -/
def acceptedWord (s : State) (c : Chip) (w old : Half) : Half :=
  if c.val < s.chipCount.toNat ∧ w ≠ 0xFFFF then w else old

/-- The pattern `P` of R190. -/
def printedPattern : Phase → Byte
  | .even => 0xAA
  | .odd => 0x55

/-- Bytes 0 to 3 of a frame (R192). -/
def printedPayload (bal : Half) (p : Byte) : List Byte :=
  [0xF3, 0x00, bal.setWidth 8 &&& p, (bal >>> 8).setWidth 8 &&& p]

/-- The six bytes of a frame (R192): the payload and its checksum, little-endian. -/
def printedFrame (bal : Half) (p : Byte) (seed : Crc) : List Byte :=
  printedPayload bal p ++
    [((crc14 seed (printedPayload bal p) 0 0).setWidth 16).setWidth 8,
     ((crc14 seed (printedPayload bal p) 0 0).setWidth 16 >>> 8 : Half).setWidth 8]

/-- Rows 0x00 to 0x38 of R122's table. -/
def printedT14Part0 : List Crc :=
  [ 0x0000, 0x025B, 0x04B6, 0x06ED, 0x096C, 0x0B37, 0x0DDA, 0x0F81,
    0x12D8, 0x1083, 0x166E, 0x1435, 0x1BB4, 0x19EF, 0x1F02, 0x1D59,
    0x25B0, 0x27EB, 0x2106, 0x235D, 0x2CDC, 0x2E87, 0x286A, 0x2A31,
    0x3768, 0x3533, 0x33DE, 0x3185, 0x3E04, 0x3C5F, 0x3AB2, 0x38E9,
    0x093B, 0x0B60, 0x0D8D, 0x0FD6, 0x0057, 0x020C, 0x04E1, 0x06BA,
    0x1BE3, 0x19B8, 0x1F55, 0x1D0E, 0x128F, 0x10D4, 0x1639, 0x1462,
    0x2C8B, 0x2ED0, 0x283D, 0x2A66, 0x25E7, 0x27BC, 0x2151, 0x230A,
    0x3E53, 0x3C08, 0x3AE5, 0x38BE, 0x373F, 0x3564, 0x3389, 0x31D2 ]

/-- Rows 0x40 to 0x78 of R122's table. -/
def printedT14Part1 : List Crc :=
  [ 0x1276, 0x102D, 0x16C0, 0x149B, 0x1B1A, 0x1941, 0x1FAC, 0x1DF7,
    0x00AE, 0x02F5, 0x0418, 0x0643, 0x09C2, 0x0B99, 0x0D74, 0x0F2F,
    0x37C6, 0x359D, 0x3370, 0x312B, 0x3EAA, 0x3CF1, 0x3A1C, 0x3847,
    0x251E, 0x2745, 0x21A8, 0x23F3, 0x2C72, 0x2E29, 0x28C4, 0x2A9F,
    0x1B4D, 0x1916, 0x1FFB, 0x1DA0, 0x1221, 0x107A, 0x1697, 0x14CC,
    0x0995, 0x0BCE, 0x0D23, 0x0F78, 0x00F9, 0x02A2, 0x044F, 0x0614,
    0x3EFD, 0x3CA6, 0x3A4B, 0x3810, 0x3791, 0x35CA, 0x3327, 0x317C,
    0x2C25, 0x2E7E, 0x2893, 0x2AC8, 0x2549, 0x2712, 0x21FF, 0x23A4 ]

/-- Rows 0x80 to 0xB8 of R122's table. -/
def printedT14Part2 : List Crc :=
  [ 0x24EC, 0x26B7, 0x205A, 0x2201, 0x2D80, 0x2FDB, 0x2936, 0x2B6D,
    0x3634, 0x346F, 0x3282, 0x30D9, 0x3F58, 0x3D03, 0x3BEE, 0x39B5,
    0x015C, 0x0307, 0x05EA, 0x07B1, 0x0830, 0x0A6B, 0x0C86, 0x0EDD,
    0x1384, 0x11DF, 0x1732, 0x1569, 0x1AE8, 0x18B3, 0x1E5E, 0x1C05,
    0x2DD7, 0x2F8C, 0x2961, 0x2B3A, 0x24BB, 0x26E0, 0x200D, 0x2256,
    0x3F0F, 0x3D54, 0x3BB9, 0x39E2, 0x3663, 0x3438, 0x32D5, 0x308E,
    0x0867, 0x0A3C, 0x0CD1, 0x0E8A, 0x010B, 0x0350, 0x05BD, 0x07E6,
    0x1ABF, 0x18E4, 0x1E09, 0x1C52, 0x13D3, 0x1188, 0x1765, 0x153E ]

/-- Rows 0xC0 to 0xF8 of R122's table. -/
def printedT14Part3 : List Crc :=
  [ 0x369A, 0x34C1, 0x322C, 0x3077, 0x3FF6, 0x3DAD, 0x3B40, 0x391B,
    0x2442, 0x2619, 0x20F4, 0x22AF, 0x2D2E, 0x2F75, 0x2998, 0x2BC3,
    0x132A, 0x1171, 0x179C, 0x15C7, 0x1A46, 0x181D, 0x1EF0, 0x1CAB,
    0x01F2, 0x03A9, 0x0544, 0x071F, 0x089E, 0x0AC5, 0x0C28, 0x0E73,
    0x3FA1, 0x3DFA, 0x3B17, 0x394C, 0x36CD, 0x3496, 0x327B, 0x3020,
    0x2D79, 0x2F22, 0x29CF, 0x2B94, 0x2415, 0x264E, 0x20A3, 0x22F8,
    0x1A11, 0x184A, 0x1EA7, 0x1CFC, 0x137D, 0x1126, 0x17CB, 0x1590,
    0x08C9, 0x0A92, 0x0C7F, 0x0E24, 0x01A5, 0x03FE, 0x0513, 0x0748 ]

/-- The table R122 prints. -/
def printedT14 : List Crc := printedT14Part0 ++ printedT14Part1 ++ printedT14Part2 ++ printedT14Part3

end Sys2Proof.Machine

open Sys2Proof Sys2Proof.Machine

/-! ### Encoding -/

/-- Every well-formed instruction is decoded from its own word (R81, R85, R88). -/
def Obligations.EveryWellFormedInstrDecodesFromItsWord : Prop :=
  ∀ i : Instr, i.wellFormed = true → decode (encode i) = .ok i

/-- Every word that decodes is the word of the instruction it decodes to, which is well-formed: no bit of a command word
is dropped (R81, R85, R88). -/
def Obligations.EveryDecodedWordIsItsInstrsWord : Prop :=
  ∀ (w : Word) (i : Instr), decode w = .ok i → i.wellFormed = true ∧ encode i = w

/-- R85: a word is a given command exactly when it matches the command's row, and no word matches two rows. -/
def Obligations.WordIsACommandExactlyOnItsRow : Prop :=
  ∀ w : Word,
    ((∃ buf off len, decode w = .ok (.crc8 buf off len)) ↔ w &&& 0xFFFF0080 = 0x10000000) ∧
    ((∃ buf off len n, decode w = .ok (.crc14 buf off len n)) ↔ w &&& 0xFFF80080 = 0x20000000) ∧
    (decode w = .ok .decCva ↔ w &&& 0xFFFFFFFF = 0x30000000) ∧
    (decode w = .ok .decCvb ↔ w &&& 0xFFFFFFFF = 0x31000000) ∧
    (decode w = .ok .decCvc ↔ w &&& 0xFFFFFFFF = 0x32000000) ∧
    (decode w = .ok .decCvd ↔ w &&& 0xFFFFFFFF = 0x33000000) ∧
    (decode w = .ok .decCve ↔ w &&& 0xFFFFFFFF = 0x34000000) ∧
    (decode w = .ok .decTv ↔ w &&& 0xFFFFFFFF = 0x35000000) ∧
    (decode w = .ok .decAux ↔ w &&& 0xFFFFFFFF = 0x36000000) ∧
    (decode w = .ok .decCfg ↔ w &&& 0xFFFFFFFF = 0x37000000) ∧
    (decode w = .ok .decTemp ↔ w &&& 0xFFFFFFFF = 0x38000000) ∧
    (decode w = .ok .encCfg ↔ w &&& 0xFFFFFFFF = 0x40000000) ∧
    ((∃ r, decode w = .error r) ↔ matchesNoRow w) ∧
    printedRows.Pairwise fun r r' => ¬(w &&& r.1 = r.2 ∧ w &&& r'.1 = r'.2)

/-- Words of 95_test_vectors.md decode to the commands that file writes beside them. -/
def Obligations.WrittenWordsDecodeToTheirCommands : Prop :=
  decode 0x10000302 = .ok (.crc8 .rx 3 2) ∧ decode 0x10008030 = .ok (.crc8 .tx 0 48) ∧
  decode 0x10004B01 = .ok (.crc8 .rx 75 1) ∧ decode 0x20030001 = .ok (.crc14 .rx 0 1 3) ∧
  decode 0x20014A00 = .ok (.crc14 .rx 74 0 1) ∧ decode 0x2007AF00 = .ok (.crc14 .tx 47 0 7) ∧
  decode 0x34000000 = .ok .decCve ∧ decode 0x36000000 = .ok .decAux ∧ decode 0x38000000 = .ok .decTemp ∧
  decode 0x40000000 = .ok .encCfg

/-- R86: a word that matches no row of R85, written to `CMD` while `ERR = 0`, raises ILLEGAL_CMD and does nothing else; the
reserved OP and SUB values and a nonzero fixed-zero bit all make such a word. -/
def Obligations.ReservedWordsRaiseIllegalCmd : Prop :=
  ∀ w : Word,
    (∀ (s : State) (rest : List HostOp), s.pending = .wr32 0x100 w :: rest → s.status.err = false → matchesNoRow w →
      step s = .next { s with pending := rest, cmd := w, status := ⟨true, .illegalCmd, s.status.phase⟩ }) ∧
    (opOf w = 0 ∨ 5 ≤ opOf w → matchesNoRow w) ∧
    (opOf w = 3 ∧ 9 ≤ subOf w → matchesNoRow w) ∧
    (opOf w = 1 ∧ w &&& 0x0FFF0080 ≠ 0 → matchesNoRow w) ∧
    (opOf w = 2 ∧ w &&& 0x0FF80080 ≠ 0 → matchesNoRow w) ∧
    (opOf w = 3 ∧ w &&& 0x00FFFFFF ≠ 0 → matchesNoRow w) ∧
    (opOf w = 4 ∧ w &&& 0x0FFFFFFF ≠ 0 → matchesNoRow w)

/-! ### Steps -/

/-- When the host's next access writes a word to `CMD`, `ERR = 0` and the word decodes to `i`, the step takes the access off
the host's list, stores the word in `CMD`, and is `exec i` of that state (R23, R92). -/
def Obligations.StepRunsTheDecodedCommand : Prop :=
  ∀ (s : State) (w : Word) (rest : List HostOp) (i : Instr),
    s.pending = .wr32 0x100 w :: rest → s.status.err = false → decode w = .ok i →
    step s = exec i { s with pending := rest, cmd := w }

/-- While `ERR = 1` a write to `CMD` has no effect at all, and every other host access does what it does with `ERR = 0`,
except that no fault is recorded (R23, R214, R219). The read of `STATUS` itself is left out of the second clause, since
what it returns is `STATUS`. -/
def Obligations.OnlyCmdWritesAreBlockedWhileErr : Prop :=
  ∀ (s : State) (op : HostOp) (rest : List HostOp), s.pending = op :: rest → s.status.err = true →
    ((∃ w, op = .wr32 0x100 w) → step s = .next { s with pending := rest }) ∧
    ∀ u, op ≠ .reset → (∀ w, op ≠ .wr32 0x100 w) → op ≠ .rd32 0x104 →
      step { s with status := ⟨false, .none, s.status.phase⟩ } = .next u → step s = .next { u with status := s.status }

/-- The model's choice (log 1): with nothing pending a step changes nothing. -/
def Obligations.StepHoldsTheStateWhenNothingIsPending : Prop :=
  ∀ s : State, s.pending = [] → step s = .next s

/-- No access, command or reset stops the machine: every step answers a next state (60_exceptions.md: a fault is recorded
and the block goes on). -/
def Obligations.EveryStepAnswersANextState : Prop :=
  ∀ s : State, ∃ t, step s = .next t

/-- The reset input puts every element of the CCU's state to its reset value at once (R240). That what the host has yet to do
and has read stays is the model's choice (log 2). -/
def Obligations.ResetInputRestoresEveryElement : Prop :=
  ∀ (s : State) (rest : List HostOp), s.pending = .reset :: rest →
    step s = .next { State.reset with pending := rest, readData := s.readData }

/-- R47: what every element of state holds after reset. -/
def Obligations.ResetStateHoldsThePrintedValues : Prop :=
  State.reset.cmd = 0x00000000 ∧ State.reset.status.err = false ∧ State.reset.status.cause = .none ∧
  State.reset.status.phase = .even ∧ State.reset.chipCount = 0 ∧ State.reset.swap5v = 0xA9 ∧
  State.reset.validMap = 0x00 ∧ State.reset.crc8Res = 0x00 ∧ State.reset.crc14Res = 0x0000 ∧
  State.reset.crc14Init = 0x0000 ∧ (∀ c : Chip, State.reset.balMask[c] = 0x0000) ∧
  (∀ i < 75, State.reset.bufByte .rx i = 0x00) ∧ (∀ i < 48, State.reset.bufByte .tx i = 0x00) ∧
  ∀ d : Store, State.reset.getStore d = 0x0000

/-! ### Host accesses -/

/-- Every element lies in the 11-bit space at a multiple of its width, and no two elements share a byte (R60 to R62). -/
def Obligations.ElementsAreAlignedAndDisjoint : Prop :=
  (∀ e : Elem, e.addr % e.width.bytes = 0 ∧ e.addr + e.width.bytes ≤ 0x800) ∧
  ∀ e e' : Elem, e ≠ e' → e.addr + e.width.bytes ≤ e'.addr ∨ e'.addr + e'.width.bytes ≤ e.addr

/-- Each row of R61's map, written out: the address and width an element is at, and the register that a read there
returns, with no side effect (R62, R65, R68). That the value goes to the field `readData`, zero-extended, is the model's
choice (log 3). -/
def Obligations.AdmittedReadReturnsTheElement : Prop :=
  (∀ i : Fin 75, ReadsAs (.rx i) .w8 i fun s => (s.mem.read i).setWidth 32) ∧
  (∀ i : Fin 48, ReadsAs (.tx i) .w8 (0x080 + i) fun s => (s.mem.read (0x080 + i)).setWidth 32) ∧
  ReadsAs .cmd .w32 0x100 (fun s => s.cmd) ∧
  ReadsAs .status .w32 0x104 (fun s => s.status.word) ∧
  ReadsAs .chipCount .w8 0x108 (fun s => s.chipCount.setWidth 32) ∧
  ReadsAs .swap5v .w8 0x109 (fun s => s.swap5v.setWidth 32) ∧
  ReadsAs .validMap .w8 0x10A (fun s => s.validMap.setWidth 32) ∧
  ReadsAs .crc8Res .w8 0x10B (fun s => s.crc8Res.setWidth 32) ∧
  ReadsAs .crc14Res .w16 0x10C (fun s => s.crc14Res.setWidth 32) ∧
  ReadsAs .crc14Init .w16 0x10E (fun s => s.crc14Init.setWidth 32) ∧
  (∀ c : Fin 8, ReadsAs (.balMask c) .w16 (0x110 + 2 * c) fun s => s.balMask[c].setWidth 32) ∧
  (∀ (c : Fin 8) (k : Fin 15), ReadsAs (.store (.cellRaw c k)) .w16 (0x200 + 30 * c + 2 * k) fun s =>
    s.cellRaw[c][k].setWidth 32) ∧
  (∀ c : Fin 8, ReadsAs (.store (.tvRaw c)) .w16 (0x300 + 2 * c) fun s => s.tvRaw[c].setWidth 32) ∧
  (∀ c : Fin 8, ReadsAs (.store (.auxT1 c)) .w16 (0x310 + 2 * c) fun s => s.auxT1[c].setWidth 32) ∧
  (∀ c : Fin 8, ReadsAs (.store (.aux5v c)) .w16 (0x320 + 2 * c) fun s => s.aux5v[c].setWidth 32) ∧
  (∀ c : Fin 8, ReadsAs (.store (.auxT2 c)) .w16 (0x330 + 2 * c) fun s => s.auxT2[c].setWidth 32) ∧
  (∀ c : Fin 8, ReadsAs (.store (.cfgW0 c)) .w16 (0x340 + 2 * c) fun s => s.cfgW0[c].setWidth 32) ∧
  (∀ c : Fin 8, ReadsAs (.store (.cfgW1 c)) .w16 (0x350 + 2 * c) fun s => s.cfgW1[c].setWidth 32) ∧
  ∀ c : Fin 8, ReadsAs (.store (.tempRaw c)) .w16 (0x360 + 2 * c) fun s => s.tempRaw[c].setWidth 32

/-- R63: an access that no element's address and width admit raises ACCESS and has no other effect; a read returns 0. -/
def Obligations.AccessNotAdmittedRaisesAccess : Prop :=
  ∀ (s : State) (n : Width) (a : Addr) (v : Word) (rest : List HostOp),
    (∀ e : Elem, ¬(e.addr = a.toNat ∧ e.width = n)) →
    (s.pending = readOp n a :: rest →
      step s = .next { s with pending := rest, readData := 0, status := recordedStatus s.status .access }) ∧
    (s.pending = writeOp n a v :: rest →
      step s = .next { s with pending := rest, status := recordedStatus s.status .access })

/-- R64: a host write to a read-only element raises ACCESS and changes nothing. -/
def Obligations.WriteToReadOnlyElementRaisesAccess : Prop :=
  ∀ (s : State) (e : Elem) (v : Word) (rest : List HostOp), hostReadOnly e →
    s.pending = writeOp e.width (BitVec.ofNat 11 e.addr) v :: rest →
    step s = .next { s with pending := rest, status := recordedStatus s.status .access }

/-- A host write to `CHIPCOUNT` stores a value up to 8 and faults above it (R28). -/
def Obligations.ChipCountWriteStoresOrFaults : Prop :=
  ∀ (s : State) (v : Byte) (rest : List HostOp), s.pending = .wr8 0x108 v :: rest →
    (v.toNat ≤ 8 → step s = .next { s with pending := rest, chipCount := v }) ∧
    (8 < v.toNat → step s = .next { s with pending := rest, status := recordedStatus s.status .chipCountValue })

/-- Host writes to `SWAP5V`, `CRC14_INIT` (bits 15:14 dropped) and `BALMASK[c]` store the value and change nothing else
(R29, R31, R32). -/
def Obligations.ConfigRegisterWritesStoreTheValue : Prop :=
  ∀ (s : State) (rest : List HostOp),
    (∀ v : Byte, s.pending = .wr8 0x109 v :: rest → step s = .next { s with pending := rest, swap5v := v }) ∧
    (∀ v : Half, s.pending = .wr16 0x10E v :: rest →
      step s = .next { s with pending := rest, crc14Init := v &&& 0x3FFF }) ∧
    ∀ (c : Chip) (v : Half), s.pending = .wr16 (BitVec.ofNat 11 (0x110 + 2 * c)) v :: rest →
      step s = .next { s with pending := rest, balMask := s.balMask.set c v }

/-- A host write to `RX[i]` stores one byte, at host address `i`, and changes nothing else (R35, R61, R68). -/
def Obligations.RxWriteStoresOneByte : Prop :=
  ∀ (s : State) (i : Nat) (v : Byte) (rest : List HostOp), s.mem.wf = true → i < 75 →
    s.pending = .wr8 (BitVec.ofNat 11 i) v :: rest →
    ∃ t, step s = .next t ∧ t = { s with pending := rest, mem := t.mem } ∧ t.mem.read i = v ∧
      ∀ a, a ≠ i → t.mem.read a = s.mem.read a

/-- A write to `RX`, `CHIPCOUNT` (legal value), `SWAP5V`, `CRC14_INIT` or `BALMASK` is idempotent: done twice it leaves
what it leaves done once (R68). -/
def Obligations.RegisterWritesAreIdempotent : Prop :=
  ∀ (s : State) (op : HostOp) (rest : List HostOp), s.mem.wf = true → idempotentWrite op →
    s.pending = op :: op :: rest → ∃ t, step s = .next t ∧ step t = .next { t with pending := rest }

/-! ### Status and faults -/

/-- The `STATUS` word: ERR in bit 0, CAUSE in bits 7:4 with the codes of R211, PHASE in bit 8, every other bit 0 (R24). -/
def Obligations.StatusWordHasThePrintedLayout : Prop :=
  ∀ st : Status,
    st.word.toNat = (if st.err then 1 else 0)
      + 16 * (match st.cause with
          | .none => 0
          | .illegalCmd => 1
          | .range => 2
          | .access => 3
          | .chipCountValue => 4)
      + 256 * (match st.phase with
          | .even => 0
          | .odd => 1)

/-- R25: recording a fault takes ERR from 0 to 1, no step but reset takes it back, and reset does. The cause stays with
it. -/
def Obligations.ErrSticksUntilReset : Prop :=
  (∀ (s : State) (x : Cause), s.status.err = false → (s.raiseFault x).status.err = true) ∧
  (∀ s t : State, step s = .next t → s.status.err = true → (∀ rest, s.pending ≠ .reset :: rest) →
    t.status.err = true ∧ t.status.cause = s.status.cause) ∧
  ∀ (s : State) (rest : List HostOp), s.pending = .reset :: rest → ∃ t, step s = .next t ∧ t.status.err = false

/-- Faults are precise (R213, R218): the step that records a fault changes only `STATUS`, the host's list, `CMD` when the
access is the write of a command, and the read value, which is 0, when it is a read. -/
def Obligations.RecordedFaultLeavesEverythingElse : Prop :=
  ∀ (s t : State) (op : HostOp) (rest : List HostOp), s.pending = op :: rest → s.status.err = false →
    step s = .next t → t.status.err = true →
    t = { s with pending := rest, cmd := t.cmd, readData := t.readData,
                 status := ⟨true, t.status.cause, s.status.phase⟩ } ∧
    t.status.cause ≠ .none ∧ (∀ w, op = .wr32 0x100 w → t.cmd = w) ∧ ((∀ w, op ≠ .wr32 0x100 w) → t.cmd = s.cmd) ∧
    (∀ n a, op = readOp n a → t.readData = 0) ∧ ((∀ n a, op ≠ readOp n a) → t.readData = s.readData)

/-- The only fault a command can raise is RANGE, and only CRC8 and CRC14 can, on a range past the end of their buffer; no
decode and no encode faults on data (R165, R190, R212). -/
def Obligations.CommandsFaultOnlyOnRange : Prop :=
  ∀ (i : Instr) (s t : State), s.status.err = false → exec i s = .next t → t.status.err = true →
    t.status.cause = .range ∧
    ((∃ buf off len, i = .crc8 buf off len ∧ printedSize buf < off + len) ∨
      ∃ buf off len n, i = .crc14 buf off len n ∧ printedSize buf < off + len + (if 0 < n then 1 else 0))

/-! ### CRC-8 -/

/-- R101: `crc8` starts from 0x10 and takes each further byte `b` to `T8[acc ^ b]`. -/
def Obligations.Crc8FollowsItsRecurrence : Prop :=
  crc8 [] = 0x10 ∧ ∀ (x : List Byte) (b : Byte), crc8 (x ++ [b]) = Config.t8 (crc8 x ^^^ b)

/-- CRC8 (R100) writes the checksum of its range into `CRC8_RES` and nothing else; past the end it raises RANGE and nothing
else. -/
def Obligations.Crc8CommandWritesItsResult : Prop :=
  ∀ (s : State) (buf : Buf) (off len : Nat),
    (off + len ≤ printedSize buf →
      exec (.crc8 buf off len) s = .next { s with crc8Res := crc8 (rangeBytes s buf off len) }) ∧
    (printedSize buf < off + len →
      exec (.crc8 buf off len) s = .next { s with status := recordedStatus s.status .range })

/-! ### CRC-14 -/

/-- R120: one accumulator, the byte phase in address order and then the bit phase, most significant bit first; the residual
byte is ignored when `n = 0`. -/
def Obligations.Crc14RunsBytePhaseThenBitPhase : Prop :=
  (∀ (init : Crc) (r : Byte), crc14 init [] 0 r = init) ∧
  (∀ (init : Crc) (x : List Byte) (b r r' : Byte), crc14 init (x ++ [b]) 0 r = byteStep (crc14 init x 0 r') b) ∧
  ∀ (init : Crc) (x : List Byte) (n : Nat) (r : Byte), n < 7 →
    crc14 init x (n + 1) r = bitStep (crc14 init x n r) (r.getLsbD (7 - n))

/-- R123: the byte step as arithmetic on numbers masked to 14 bits. -/
def Obligations.ByteStepFollowsItsFormula : Prop :=
  ∀ (acc : Crc) (b : Byte),
    (byteStep acc b).toNat =
      ((acc.toNat <<< 8) &&& 0x3FFF) ^^^ (Config.t14 (BitVec.ofNat 8 (((acc.toNat >>> 6) ^^^ b.toNat) &&& 0xFF))).toNat

/-- R124: the bit step as arithmetic on numbers masked to 14 bits. -/
def Obligations.BitStepFollowsItsFormula : Prop :=
  ∀ (acc : Crc) (v : Bool),
    (bitStep acc v).toNat =
      if acc.toNat.testBit 13 ^^ v then ((acc.toNat <<< 1) ^^^ 0x025B) &&& 0x3FFF else (acc.toNat <<< 1) &&& 0x3FFF

/-- The generated CRC-14 table is the one 41_crc14.md prints (the spec's own choice of table; log 6). -/
def Obligations.T14IsThePrintedTable : Prop :=
  printedT14.length = 256 ∧ ∀ i : Byte, printedT14[i.toNat]? = some (Config.t14 i)

/-- The CRC-14 table is linear: `T14[i ^ j] = T14[i] ^ T14[j]` (the spec's own inference, 41_crc14.md; log 6). -/
def Obligations.T14IsLinear : Prop :=
  ∀ i j : Byte, Config.t14 (i ^^^ j) = Config.t14 i ^^^ Config.t14 j

/-- Law (a) of 41_crc14.md, which the spec marks as derived (logs 6 and 7): a byte step is eight bit steps, so a whole byte is seven residual bits and one bit step more. -/
def Obligations.ByteStepIsEightBitSteps : Prop :=
  ∀ (init : Crc) (x : List Byte) (b r : Byte),
    crc14 init (x ++ [b]) 0 r = bitStep (crc14 init x 7 b) (b.getLsbD 0)

/-- Laws (c) and (d) of 41_crc14.md, which the spec marks as derived: zero bytes keep a zero accumulator at zero, and a payload may be checked in pieces. -/
def Obligations.Crc14ZeroAndChainingLaws : Prop :=
  (∀ (k : Nat) (r : Byte), crc14 0 (List.replicate k 0) 0 r = 0) ∧
  ∀ (init : Crc) (x y : List Byte) (n : Nat) (r r' : Byte), crc14 (crc14 init x 0 r') y n r = crc14 init (x ++ y) n r

/-- CRC14 (R126) writes the zero-extended checksum of its range and residual bits into `CRC14_RES` and nothing else; when a byte
it needs lies past the end it raises RANGE and nothing else. -/
def Obligations.Crc14CommandWritesItsResult : Prop :=
  ∀ (s : State) (buf : Buf) (off len n : Nat),
    (off + len + (if 0 < n then 1 else 0) ≤ printedSize buf →
      exec (.crc14 buf off len n) s = .next { s with
        crc14Res := (crc14 (s.crc14Init.setWidth 14) (rangeBytes s buf off len) n
          (if 0 < n then s.bufByte buf (off + len) else 0)).setWidth 16 }) ∧
    (printedSize buf < off + len + (if 0 < n then 1 else 0) →
      exec (.crc14 buf off len n) s = .next { s with status := recordedStatus s.status .range })

/-- Chaining by commands (law (d) of 41_crc14.md, which the spec marks as derived): a CRC14 over the first
piece, its result copied to `CRC14_INIT`, and a CRC14 over the second piece leave in `CRC14_RES` what one CRC14 over both
leaves. -/
def Obligations.Crc14CommandsChainThroughTheSeed : Prop :=
  ∀ (s : State) (buf : Buf) (off len len' n : Nat),
    off + len + len' + (if 0 < n then 1 else 0) ≤ printedSize buf →
    ∃ t u v, exec (.crc14 buf off len 0) s = .next t ∧
      exec (.crc14 buf (off + len) len' n) { t with crc14Init := t.crc14Res } = .next u ∧
      exec (.crc14 buf off (len + len') n) s = .next v ∧ u.crc14Res = v.crc14Res

/-- A checksum command's result depends on nothing but the bytes of its range, for CRC14 with the residual byte when it has
one and with the seed (R100, R126). -/
def Obligations.ChecksumDependsOnItsRangeOnly : Prop :=
  (∀ (s s' : State) (buf : Buf) (off len : Nat), off + len ≤ printedSize buf →
    (∀ i, off ≤ i → i < off + len → s'.bufByte buf i = s.bufByte buf i) →
    ∃ t t', exec (.crc8 buf off len) s = .next t ∧ exec (.crc8 buf off len) s' = .next t' ∧
      t'.crc8Res = t.crc8Res) ∧
  ∀ (s s' : State) (buf : Buf) (off len n : Nat),
    off + len + (if 0 < n then 1 else 0) ≤ printedSize buf → s'.crc14Init = s.crc14Init →
    (∀ i, off ≤ i → i < off + len + (if 0 < n then 1 else 0) → s'.bufByte buf i = s.bufByte buf i) →
    ∃ t t', exec (.crc14 buf off len n) s = .next t ∧ exec (.crc14 buf off len n) s' = .next t' ∧
      t'.crc14Res = t.crc14Res

/-! ### Decoding replies -/

/-- `le16(a)` and `be16(a)` as numbers (R11, R66), and which of the two the 5V word is (R160). -/
def Obligations.ReplyWordsHaveTheirByteOrder : Prop :=
  ∀ (s : State) (a : Nat) (c : Chip),
    (s.le16 a).toNat = (s.bufByte .rx a).toNat + 256 * (s.bufByte .rx (a + 1)).toNat ∧
    (s.be16 a).toNat = 256 * (s.bufByte .rx a).toNat + (s.bufByte .rx (a + 1)).toNat ∧
    (s.swap5v.getLsbD c = true → s.word5v c a = s.be16 a) ∧ (s.swap5v.getLsbD c = false → s.word5v c a = s.le16 a)

/-- R163: a sentinel leaves its destination untouched and is not accepted; every other word, 0 among them, is written and
accepted; and in a decode every word of every chip fares by itself, whatever the others are. -/
def Obligations.SentinelIsDiscardedPerWord : Prop :=
  (∀ (s : State) (d : Store), s.accept d 0xFFFF = (s, false)) ∧
  (∀ (s : State) (d : Store) (w : Half), w ≠ 0xFFFF →
    (s.accept d w).2 = true ∧ (s.accept d w).1.getStore d = w ∧
      ∀ d', d' ≠ d → (s.accept d w).1.getStore d' = s.getStore d') ∧
  ∀ (i : Instr) (s : State), i ∈ decodeCommands → ∃ t, exec i s = .next t ∧
    ∀ (c : Chip) (d : Store) (w : Half), (d, w) ∈ (replyStores c i).zip (replyWords s c i) →
      t.getStore d = acceptedWord s c w (s.getStore d)

/-- R152: after any decode, bit `c` of `VALIDMAP` is 1 exactly when `c < CHIPCOUNT` and at least one word of chip `c` was
accepted. -/
def Obligations.ValidMapMarksExactlyTheAcceptedChips : Prop :=
  ∀ (i : Instr) (s : State), i ∈ decodeCommands → ∃ t, exec i s = .next t ∧
    ∀ c : Chip, t.validMap.getLsbD c = true ↔ c.val < s.chipCount.toNat ∧ ∃ w ∈ replyWords s c i, w ≠ 0xFFFF

/-- DEC.CVA to DEC.CVE (R153 to R157): word `k` of each chip's segment goes to slot `first + k` unless it is the sentinel;
the other slots, the chips from `CHIPCOUNT` on, and everything but `CELLRAW` and `VALIDMAP` are unchanged. -/
def Obligations.CellGroupsDecodeIntoTheirSlots : Prop :=
  ∀ (p : Instr × Nat) (s : State), p ∈ cellGroups → ∃ t, exec p.1 s = .next t ∧
    t = { s with cellRaw := t.cellRaw, validMap := t.validMap } ∧
    ∀ (c : Chip) (k : Slot), t.cellRaw[c][k] =
      if p.2 ≤ k.val ∧ k.val < p.2 + 3 then acceptedWord s c (s.le16 (9 * c + 1 + 2 * (k.val - p.2))) s.cellRaw[c][k]
      else s.cellRaw[c][k]

/-- DEC.TV (R158): the first data word of each chip's 7-byte segment goes to `TVRAW`; nothing else but `VALIDMAP` changes. -/
def Obligations.TotalVoltageDecodesIntoItsStore : Prop :=
  ∀ s : State, ∃ t, exec .decTv s = .next t ∧ t = { s with tvRaw := t.tvRaw, validMap := t.validMap } ∧
    ∀ c : Chip, t.tvRaw[c] = acceptedWord s c (s.le16 (7 * c + 1)) s.tvRaw[c]

/-- DEC.AUX (R159, R160): the three words go to `AUXT1`, `AUX5V`, `AUXT2`, the 5V word byte-reversed where `SWAP5V[c] = 1`;
nothing else but `VALIDMAP` changes. -/
def Obligations.AuxiliaryDecodesIntoItsStores : Prop :=
  ∀ s : State, ∃ t, exec .decAux s = .next t ∧
    t = { s with auxT1 := t.auxT1, aux5v := t.aux5v, auxT2 := t.auxT2, validMap := t.validMap } ∧
    ∀ c : Chip, t.auxT1[c] = acceptedWord s c (s.le16 (9 * c + 1)) s.auxT1[c] ∧
      t.aux5v[c] =
        acceptedWord s c (if s.swap5v.getLsbD c then s.be16 (9 * c + 3) else s.le16 (9 * c + 3)) s.aux5v[c] ∧
      t.auxT2[c] = acceptedWord s c (s.le16 (9 * c + 5)) s.auxT2[c]

/-- DEC.CFG (R161): the two words go to `CFGW0` and `CFGW1`; nothing else but `VALIDMAP` changes. -/
def Obligations.ConfigurationDecodesIntoItsStores : Prop :=
  ∀ s : State, ∃ t, exec .decCfg s = .next t ∧
    t = { s with cfgW0 := t.cfgW0, cfgW1 := t.cfgW1, validMap := t.validMap } ∧
    ∀ c : Chip, t.cfgW0[c] = acceptedWord s c (s.le16 (7 * c + 1)) s.cfgW0[c] ∧
      t.cfgW1[c] = acceptedWord s c (s.le16 (7 * c + 3)) s.cfgW1[c]

/-- DEC.TEMP (R162): every 4th 16-bit word of `RX` from word 1 goes to `TEMPRAW`; nothing else but `VALIDMAP` changes. -/
def Obligations.TemperatureDecodesIntoItsStore : Prop :=
  ∀ s : State, ∃ t, exec .decTemp s = .next t ∧ t = { s with tempRaw := t.tempRaw, validMap := t.validMap } ∧
    ∀ c : Chip, t.tempRaw[c] = acceptedWord s c (s.le16 (2 * (1 + 4 * c))) s.tempRaw[c]

/-- A reply whose every word is the sentinel is a silent miss (R165): no store changes, no fault is recorded, and `VALIDMAP`
becomes 0. -/
def Obligations.AllSentinelReplyIsASilentMiss : Prop :=
  ∀ (i : Instr) (s : State), i ∈ decodeCommands →
    (∀ c : Chip, c.val < s.chipCount.toNat → ∀ w ∈ replyWords s c i, w = 0xFFFF) →
    exec i s = .next { s with validMap := 0 }

/-- The `RX` bytes that a decode does not read have no effect on it: segment bytes outside the data words, and segments from
`CHIPCOUNT` on (R151, R164). -/
def Obligations.UnreadReplyBytesHaveNoEffect : Prop :=
  ∀ (i : Instr) (s t : State) (m : Memory), i ∈ decodeCommands →
    (∀ c : Chip, c.val < s.chipCount.toNat → ∀ j ∈ replyBytes c i, m.read j = s.mem.read j) →
    exec i s = .next t → exec i { s with mem := m } = .next { t with mem := m }

/-! ### Encoding configuration writes -/

/-- ENC.CFG (R190 to R194): the six bytes of every chip below `CHIPCOUNT`, every other byte of memory as before, the phase
inverted, and nothing else changed. -/
def Obligations.EncCfgWritesTheFramesAndInvertsThePhase : Prop :=
  ∀ s : State, s.mem.wf = true → ∃ t, exec .encCfg s = .next t ∧
    t = { s with mem := t.mem,
                 status := { s.status with phase := if s.status.phase = .even then .odd else .even } } ∧
    (∀ c : Chip, c.val < s.chipCount.toNat → ∀ j, j < 6 →
      some (t.mem.read (0x080 + 6 * c + j)) =
        (printedFrame s.balMask[c] (printedPattern s.status.phase) (s.crc14Init.setWidth 14))[j]?) ∧
    ∀ a, (∀ c : Chip, c.val < s.chipCount.toNat → ¬(0x080 + 6 * c.val ≤ a ∧ a < 0x080 + 6 * c.val + 6)) →
      t.mem.read a = s.mem.read a

/-- R191: the phase selects 0xAAAA or 0x5555 on the balance mask, for every chip of one ENC.CFG; 0xAAAA has the odd bit
indices and 0x5555 the even ones. -/
def Obligations.PhaseSelectsThePatternOfEveryFrame : Prop :=
  (∀ s t : State, s.mem.wf = true → exec .encCfg s = .next t → ∀ c : Chip, c.val < s.chipCount.toNat →
    t.frameMask c = s.balMask[c] &&& (if s.status.phase = .even then 0xAAAA else 0x5555)) ∧
  ∀ k < 16, (0xAAAA : Half).getLsbD k = decide (k % 2 = 1) ∧ (0x5555 : Half).getLsbD k = decide (k % 2 = 0)

/-- No frame that ENC.CFG writes commands two slot-adjacent cells, for every balance mask and either phase: the no-adjacency
invariant of 43_codec_encode.md, which the spec marks as derived. -/
def Obligations.EncodedFramesHaveNoAdjacentCells : Prop :=
  ∀ s t : State, s.mem.wf = true → exec .encCfg s = .next t → ∀ c : Chip, c.val < s.chipCount.toNat →
    t.noAdjacentCells c

/-- The partition law of 43_codec_encode.md, which the spec marks as derived: two successive ENC.CFG with the same mask
partition it: their masks cover it and share no bit, and from EVEN the first
passes `0xAAAA` and the second `0x5555`. -/
def Obligations.TwoPassesPartitionTheMask : Prop :=
  ∀ s t u : State, s.mem.wf = true → exec .encCfg s = .next t → exec .encCfg t = .next u →
    ∀ c : Chip, c.val < s.chipCount.toNat →
      t.frameMask c ||| u.frameMask c = s.balMask[c] ∧ t.frameMask c &&& u.frameMask c = 0 ∧
      (s.status.phase = .even →
        t.frameMask c = s.balMask[c] &&& 0xAAAA ∧ u.frameMask c = s.balMask[c] &&& 0x5555)

/-- A frame's checksum re-checks in place: after ENC.CFG, CRC14 over the frame's first four bytes leaves in `CRC14_RES` the
word its last two bytes hold. -/
def Obligations.FrameChecksumRechecksInPlace : Prop :=
  ∀ (s t : State) (c : Chip), s.mem.wf = true → c.val < s.chipCount.toNat → exec .encCfg s = .next t →
    exec (.crc14 .tx (6 * c) 4 0) t =
      .next { t with crc14Res := t.bufByte .tx (6 * c + 5) ++ t.bufByte .tx (6 * c + 4) }

/-- R194: every ENC.CFG that executes inverts PHASE once, after writing its frames under the phase it found; every other
access, a faulting or an ignored command too, leaves it; and it starts EVEN. -/
def Obligations.PhaseAlternatesOnExecutedEncodesOnly : Prop :=
  State.reset.status.phase = .even ∧
  ∀ (s t : State) (op : HostOp) (rest : List HostOp), s.pending = op :: rest → step s = .next t →
    (op = .wr32 0x100 0x40000000 ∧ s.status.err = false →
      t.status.phase = (if s.status.phase = .even then .odd else .even) ∧
      (s.mem.wf = true → ∀ c : Chip, c.val < s.chipCount.toNat →
        t.frameMask c = s.balMask[c] &&& (if s.status.phase = .even then 0xAAAA else 0x5555))) ∧
    (¬(op = .wr32 0x100 0x40000000 ∧ s.status.err = false) → op ≠ .reset → t.status.phase = s.status.phase)

/-! ### Invariants and whole-machine rules -/

/-- Every step keeps the invariant `State.ok`: canonical byte memory inside the buffers, `CHIPCOUNT` at most 8, bits 15:14 of
the CRC-14 registers 0, CAUSE NONE exactly while ERR is 0. -/
def Obligations.EveryStepKeepsTheInvariant : Prop :=
  ∀ s t : State, s.ok = true → step s = .next t → t.ok = true

/-- The state after reset meets every invariant stated here. -/
def Obligations.ResetStateMeetsTheInvariants : Prop :=
  State.reset.ok = true ∧ State.reset.noSentinel ∧ ∀ c : Chip, State.reset.noAdjacentCells c

/-- No store ever holds the sentinel: every step keeps that so. -/
def Obligations.StoresNeverHoldTheSentinel : Prop :=
  ∀ s t : State, s.noSentinel → step s = .next t → t.noSentinel

/-- At no time does a frame in `TX` command two slot-adjacent cells: every step keeps that so. -/
def Obligations.TxNeverCommandsAdjacentCells : Prop :=
  ∀ s t : State, s.ok = true → (∀ c : Chip, s.noAdjacentCells c) → step s = .next t → ∀ c : Chip, t.noAdjacentCells c

/-- R43: only a decode command that executes, or reset, changes a store, and a host write to a store is an ACCESS fault. -/
def Obligations.OnlyDecodesAndResetWriteTheStores : Prop :=
  (∀ (s t : State) (d : Store), step s = .next t → t.getStore d ≠ s.getStore d →
    (∃ rest, s.pending = .reset :: rest) ∨
      ∃ w rest i, s.pending = .wr32 0x100 w :: rest ∧ s.status.err = false ∧ decode w = .ok i ∧ i ∈ decodeCommands) ∧
  ∀ (s : State) (d : Store) (v : Half) (rest : List HostOp),
    s.pending = .wr16 (BitVec.ofNat 11 d.addr) v :: rest →
    step s = .next { s with pending := rest, status := recordedStatus s.status .access }

/-- The other registers and buffers change only by the writers R22 lists: `TX` by ENC.CFG, `VALIDMAP` by a decode,
`CRC8_RES` by CRC8, `CRC14_RES` by CRC14, each issued through `CMD` while `ERR = 0`; or by reset. -/
def Obligations.ResultsChangeOnlyByTheirCommands : Prop :=
  ∀ s t : State, step s = .next t → (∀ rest, s.pending ≠ .reset :: rest) →
    ((∃ j, j < 48 ∧ t.bufByte .tx j ≠ s.bufByte .tx j) →
      s.status.err = false ∧ ∃ rest, s.pending = .wr32 0x100 0x40000000 :: rest) ∧
    (t.validMap ≠ s.validMap →
      s.status.err = false ∧ ∃ w rest i, s.pending = .wr32 0x100 w :: rest ∧ decode w = .ok i ∧ i ∈ decodeCommands) ∧
    (t.crc8Res ≠ s.crc8Res → s.status.err = false ∧
      ∃ w rest buf off len, s.pending = .wr32 0x100 w :: rest ∧ decode w = .ok (.crc8 buf off len)) ∧
    (t.crc14Res ≠ s.crc14Res → s.status.err = false ∧
      ∃ w rest buf off len n, s.pending = .wr32 0x100 w :: rest ∧ decode w = .ok (.crc14 buf off len n))

/-- The millivolts of a slot (R38): exactly `2 * raw / 25`, from 0 to 5242.8, and different codes give different values. -/
def Obligations.CellMillivoltsAreExact : Prop :=
  ∀ (s t : State) (c : Chip) (k : Slot),
    s.cellMv c k = 2 * (s.cellRaw[c][k].toNat : ℚ) / 25 ∧ 0 ≤ s.cellMv c k ∧ s.cellMv c k ≤ 52428 / 10 ∧
    (s.cellMv c k = t.cellMv c k → s.cellRaw[c][k] = t.cellRaw[c][k])

/-! ### Programs of the host -/

/-- An assembled command runs its instruction, and an operand outside its field is rejected (R88, R89). -/
def Obligations.AssembledCommandRunsItsInstruction : Prop :=
  (∀ (i : Instr) (s : State) (op : HostOp) (rest : List HostOp), assemble (.command i) = some op →
    s.pending = op :: rest → s.status.err = false →
    step s = exec i { s with pending := rest, cmd := encode i }) ∧
  (∀ i : Instr, i.wellFormed = true → assemble (.command i) = some (.wr32 0x100 (encode i))) ∧
  ∀ i : Instr, i.wellFormed = false → assemble (.command i) = none

/-- The three writes of the boot sequence (R242) leave the block booted with the given reversal table, record no fault and
change nothing else. -/
def Obligations.BootSequenceLeavesTheBlockBooted : Prop :=
  ∀ (s : State) (boards : Nat) (swap : Byte) (rest : List HostOp), 1 ≤ boards → boards ≤ 4 →
    s.pending = bootOps boards swap ++ rest →
    ∃ t u v, step s = .next t ∧ step t = .next u ∧ step u = .next v ∧ v.booted boards ∧
      v = { s with pending := rest, chipCount := BitVec.ofNat 8 (2 * boards),
                   crc14Init := Config.cfgCrc14Seed.setWidth 16, swap5v := swap }
end

