-- ==== Sys2Proof/Laws/Crc.lean ====
section
/-! SUPPORT. The step of the polynomial-shift loop (41_crc14.md rules R121 and R124) as one linear map. -/

namespace Sys2Proof.Machine

/-- The shift that builds the table distributes over XOR. -/
theorem t14Shift_xor (a b : Crc) : Config.t14Shift (a ^^^ b) = Config.t14Shift a ^^^ Config.t14Shift b := by
  unfold Config.t14Shift
  rw [BitVec.getLsbD_xor, BitVec.shiftLeft_xor_distrib]
  cases a.getLsbD 13 <;> cases b.getLsbD 13
  · simp
  · simp only [Bool.false_xor, if_true, Bool.false_eq_true, if_false]
    ac_rfl
  · simp only [Bool.xor_false, if_true, Bool.false_eq_true, if_false]
    ac_rfl
  · simp only [Bool.xor_self, if_true, Bool.false_eq_true, if_false]
    rw [show a <<< 1 ^^^ Config.crc14Poly ^^^ (b <<< 1 ^^^ Config.crc14Poly)
      = a <<< 1 ^^^ b <<< 1 ^^^ (Config.crc14Poly ^^^ Config.crc14Poly) by ac_rfl]
    simp

/-- A bit step is that shift, with the bit folded into the accumulator's top bit first. -/
theorem bitStep_eq_t14Shift (acc : Crc) (v : Bool) :
    bitStep acc v = Config.t14Shift (acc ^^^ if v then 0x2000 else 0) := by
  cases v
  · simp [bitStep, Config.t14Shift]
  · have h : ((0x2000 : Crc) <<< 1, (0x2000 : Crc).getLsbD 13) = (0, true) := by decide
    obtain ⟨h1, h2⟩ := Prod.mk.inj h
    simp only [bitStep, Config.t14Shift, if_true, BitVec.getLsbD_xor, BitVec.shiftLeft_xor_distrib, h1, h2]
    simp

end Sys2Proof.Machine
end

