-- ==== Sys2Proof/Laws/State.lean ====
section
/-! SUPPORT. What each named update leaves alone, field by field, so that no proof unfolds a record update. -/

namespace Sys2Proof.Machine

/-! ### `RX[i] <- v` and `TX[i] <- v`: only `mem` changes -/

@[simp] theorem State.rxWrite_cmd (s : State) (i : Nat) (v : Byte) : (s.rxWrite i v).cmd = s.cmd := rfl
@[simp] theorem State.rxWrite_status (s : State) (i : Nat) (v : Byte) : (s.rxWrite i v).status = s.status := rfl
@[simp] theorem State.rxWrite_chipCount (s : State) (i : Nat) (v : Byte) : (s.rxWrite i v).chipCount = s.chipCount := rfl
@[simp] theorem State.rxWrite_swap5v (s : State) (i : Nat) (v : Byte) : (s.rxWrite i v).swap5v = s.swap5v := rfl
@[simp] theorem State.rxWrite_validMap (s : State) (i : Nat) (v : Byte) : (s.rxWrite i v).validMap = s.validMap := rfl
@[simp] theorem State.rxWrite_crc8Res (s : State) (i : Nat) (v : Byte) : (s.rxWrite i v).crc8Res = s.crc8Res := rfl
@[simp] theorem State.rxWrite_crc14Res (s : State) (i : Nat) (v : Byte) : (s.rxWrite i v).crc14Res = s.crc14Res := rfl
@[simp] theorem State.rxWrite_crc14Init (s : State) (i : Nat) (v : Byte) : (s.rxWrite i v).crc14Init = s.crc14Init := rfl
@[simp] theorem State.rxWrite_balMask (s : State) (i : Nat) (v : Byte) : (s.rxWrite i v).balMask = s.balMask := rfl
@[simp] theorem State.rxWrite_mem (s : State) (i : Nat) (v : Byte) :
    (s.rxWrite i v).mem = s.mem.write (bufBase .rx + i) v := rfl
@[simp] theorem State.rxWrite_cellRaw (s : State) (i : Nat) (v : Byte) : (s.rxWrite i v).cellRaw = s.cellRaw := rfl
@[simp] theorem State.rxWrite_tvRaw (s : State) (i : Nat) (v : Byte) : (s.rxWrite i v).tvRaw = s.tvRaw := rfl
@[simp] theorem State.rxWrite_auxT1 (s : State) (i : Nat) (v : Byte) : (s.rxWrite i v).auxT1 = s.auxT1 := rfl
@[simp] theorem State.rxWrite_aux5v (s : State) (i : Nat) (v : Byte) : (s.rxWrite i v).aux5v = s.aux5v := rfl
@[simp] theorem State.rxWrite_auxT2 (s : State) (i : Nat) (v : Byte) : (s.rxWrite i v).auxT2 = s.auxT2 := rfl
@[simp] theorem State.rxWrite_cfgW0 (s : State) (i : Nat) (v : Byte) : (s.rxWrite i v).cfgW0 = s.cfgW0 := rfl
@[simp] theorem State.rxWrite_cfgW1 (s : State) (i : Nat) (v : Byte) : (s.rxWrite i v).cfgW1 = s.cfgW1 := rfl
@[simp] theorem State.rxWrite_tempRaw (s : State) (i : Nat) (v : Byte) : (s.rxWrite i v).tempRaw = s.tempRaw := rfl
@[simp] theorem State.rxWrite_pending (s : State) (i : Nat) (v : Byte) : (s.rxWrite i v).pending = s.pending := rfl
@[simp] theorem State.rxWrite_readData (s : State) (i : Nat) (v : Byte) : (s.rxWrite i v).readData = s.readData := rfl

@[simp] theorem State.txWrite_cmd (s : State) (i : Nat) (v : Byte) : (s.txWrite i v).cmd = s.cmd := rfl
@[simp] theorem State.txWrite_status (s : State) (i : Nat) (v : Byte) : (s.txWrite i v).status = s.status := rfl
@[simp] theorem State.txWrite_chipCount (s : State) (i : Nat) (v : Byte) : (s.txWrite i v).chipCount = s.chipCount := rfl
@[simp] theorem State.txWrite_swap5v (s : State) (i : Nat) (v : Byte) : (s.txWrite i v).swap5v = s.swap5v := rfl
@[simp] theorem State.txWrite_validMap (s : State) (i : Nat) (v : Byte) : (s.txWrite i v).validMap = s.validMap := rfl
@[simp] theorem State.txWrite_crc8Res (s : State) (i : Nat) (v : Byte) : (s.txWrite i v).crc8Res = s.crc8Res := rfl
@[simp] theorem State.txWrite_crc14Res (s : State) (i : Nat) (v : Byte) : (s.txWrite i v).crc14Res = s.crc14Res := rfl
@[simp] theorem State.txWrite_crc14Init (s : State) (i : Nat) (v : Byte) : (s.txWrite i v).crc14Init = s.crc14Init := rfl
@[simp] theorem State.txWrite_balMask (s : State) (i : Nat) (v : Byte) : (s.txWrite i v).balMask = s.balMask := rfl
@[simp] theorem State.txWrite_mem (s : State) (i : Nat) (v : Byte) :
    (s.txWrite i v).mem = s.mem.write (bufBase .tx + i) v := rfl
@[simp] theorem State.txWrite_cellRaw (s : State) (i : Nat) (v : Byte) : (s.txWrite i v).cellRaw = s.cellRaw := rfl
@[simp] theorem State.txWrite_tvRaw (s : State) (i : Nat) (v : Byte) : (s.txWrite i v).tvRaw = s.tvRaw := rfl
@[simp] theorem State.txWrite_auxT1 (s : State) (i : Nat) (v : Byte) : (s.txWrite i v).auxT1 = s.auxT1 := rfl
@[simp] theorem State.txWrite_aux5v (s : State) (i : Nat) (v : Byte) : (s.txWrite i v).aux5v = s.aux5v := rfl
@[simp] theorem State.txWrite_auxT2 (s : State) (i : Nat) (v : Byte) : (s.txWrite i v).auxT2 = s.auxT2 := rfl
@[simp] theorem State.txWrite_cfgW0 (s : State) (i : Nat) (v : Byte) : (s.txWrite i v).cfgW0 = s.cfgW0 := rfl
@[simp] theorem State.txWrite_cfgW1 (s : State) (i : Nat) (v : Byte) : (s.txWrite i v).cfgW1 = s.cfgW1 := rfl
@[simp] theorem State.txWrite_tempRaw (s : State) (i : Nat) (v : Byte) : (s.txWrite i v).tempRaw = s.tempRaw := rfl
@[simp] theorem State.txWrite_pending (s : State) (i : Nat) (v : Byte) : (s.txWrite i v).pending = s.pending := rfl
@[simp] theorem State.txWrite_readData (s : State) (i : Nat) (v : Byte) : (s.txWrite i v).readData = s.readData := rfl

/-! ### A store write: only the stores change -/

@[simp] theorem State.putStore_cmd (s : State) (w : Half) (d : Store) : (s.putStore w d).cmd = s.cmd := by
  cases d <;> rfl
@[simp] theorem State.putStore_status (s : State) (w : Half) (d : Store) : (s.putStore w d).status = s.status := by
  cases d <;> rfl
@[simp] theorem State.putStore_chipCount (s : State) (w : Half) (d : Store) : (s.putStore w d).chipCount = s.chipCount := by
  cases d <;> rfl
@[simp] theorem State.putStore_swap5v (s : State) (w : Half) (d : Store) : (s.putStore w d).swap5v = s.swap5v := by
  cases d <;> rfl
@[simp] theorem State.putStore_validMap (s : State) (w : Half) (d : Store) : (s.putStore w d).validMap = s.validMap := by
  cases d <;> rfl
@[simp] theorem State.putStore_crc8Res (s : State) (w : Half) (d : Store) : (s.putStore w d).crc8Res = s.crc8Res := by
  cases d <;> rfl
@[simp] theorem State.putStore_crc14Res (s : State) (w : Half) (d : Store) : (s.putStore w d).crc14Res = s.crc14Res := by
  cases d <;> rfl
@[simp] theorem State.putStore_crc14Init (s : State) (w : Half) (d : Store) : (s.putStore w d).crc14Init = s.crc14Init := by
  cases d <;> rfl
@[simp] theorem State.putStore_balMask (s : State) (w : Half) (d : Store) : (s.putStore w d).balMask = s.balMask := by
  cases d <;> rfl
@[simp] theorem State.putStore_mem (s : State) (w : Half) (d : Store) : (s.putStore w d).mem = s.mem := by
  cases d <;> rfl
@[simp] theorem State.putStore_pending (s : State) (w : Half) (d : Store) : (s.putStore w d).pending = s.pending := by
  cases d <;> rfl
@[simp] theorem State.putStore_readData (s : State) (w : Half) (d : Store) : (s.putStore w d).readData = s.readData := by
  cases d <;> rfl

/-! ### Inverting the phase: only `status` changes -/

@[simp] theorem State.invertPhase_cmd (s : State) : s.invertPhase.cmd = s.cmd := rfl
@[simp] theorem State.invertPhase_chipCount (s : State) : s.invertPhase.chipCount = s.chipCount := rfl
@[simp] theorem State.invertPhase_swap5v (s : State) : s.invertPhase.swap5v = s.swap5v := rfl
@[simp] theorem State.invertPhase_validMap (s : State) : s.invertPhase.validMap = s.validMap := rfl
@[simp] theorem State.invertPhase_crc8Res (s : State) : s.invertPhase.crc8Res = s.crc8Res := rfl
@[simp] theorem State.invertPhase_crc14Res (s : State) : s.invertPhase.crc14Res = s.crc14Res := rfl
@[simp] theorem State.invertPhase_crc14Init (s : State) : s.invertPhase.crc14Init = s.crc14Init := rfl
@[simp] theorem State.invertPhase_balMask (s : State) : s.invertPhase.balMask = s.balMask := rfl
@[simp] theorem State.invertPhase_mem (s : State) : s.invertPhase.mem = s.mem := rfl
@[simp] theorem State.invertPhase_cellRaw (s : State) : s.invertPhase.cellRaw = s.cellRaw := rfl
@[simp] theorem State.invertPhase_tvRaw (s : State) : s.invertPhase.tvRaw = s.tvRaw := rfl
@[simp] theorem State.invertPhase_auxT1 (s : State) : s.invertPhase.auxT1 = s.auxT1 := rfl
@[simp] theorem State.invertPhase_aux5v (s : State) : s.invertPhase.aux5v = s.aux5v := rfl
@[simp] theorem State.invertPhase_auxT2 (s : State) : s.invertPhase.auxT2 = s.auxT2 := rfl
@[simp] theorem State.invertPhase_cfgW0 (s : State) : s.invertPhase.cfgW0 = s.cfgW0 := rfl
@[simp] theorem State.invertPhase_cfgW1 (s : State) : s.invertPhase.cfgW1 = s.cfgW1 := rfl
@[simp] theorem State.invertPhase_tempRaw (s : State) : s.invertPhase.tempRaw = s.tempRaw := rfl
@[simp] theorem State.invertPhase_pending (s : State) : s.invertPhase.pending = s.pending := rfl
@[simp] theorem State.invertPhase_readData (s : State) : s.invertPhase.readData = s.readData := rfl
@[simp] theorem State.invertPhase_err (s : State) : s.invertPhase.status.err = s.status.err := rfl
@[simp] theorem State.invertPhase_cause (s : State) : s.invertPhase.status.cause = s.status.cause := rfl
@[simp] theorem State.invertPhase_phase (s : State) :
    s.invertPhase.status.phase = otherPhase s.status.phase := rfl

/-! ### Taking a fault: only `status` changes, and its phase does not -/

@[simp] theorem State.raiseFault_cmd (s : State) (x : Cause) : (s.raiseFault x).cmd = s.cmd := by
  unfold State.raiseFault; split <;> rfl
@[simp] theorem State.raiseFault_chipCount (s : State) (x : Cause) : (s.raiseFault x).chipCount = s.chipCount := by
  unfold State.raiseFault; split <;> rfl
@[simp] theorem State.raiseFault_swap5v (s : State) (x : Cause) : (s.raiseFault x).swap5v = s.swap5v := by
  unfold State.raiseFault; split <;> rfl
@[simp] theorem State.raiseFault_validMap (s : State) (x : Cause) : (s.raiseFault x).validMap = s.validMap := by
  unfold State.raiseFault; split <;> rfl
@[simp] theorem State.raiseFault_crc8Res (s : State) (x : Cause) : (s.raiseFault x).crc8Res = s.crc8Res := by
  unfold State.raiseFault; split <;> rfl
@[simp] theorem State.raiseFault_crc14Res (s : State) (x : Cause) : (s.raiseFault x).crc14Res = s.crc14Res := by
  unfold State.raiseFault; split <;> rfl
@[simp] theorem State.raiseFault_crc14Init (s : State) (x : Cause) : (s.raiseFault x).crc14Init = s.crc14Init := by
  unfold State.raiseFault; split <;> rfl
@[simp] theorem State.raiseFault_balMask (s : State) (x : Cause) : (s.raiseFault x).balMask = s.balMask := by
  unfold State.raiseFault; split <;> rfl
@[simp] theorem State.raiseFault_mem (s : State) (x : Cause) : (s.raiseFault x).mem = s.mem := by
  unfold State.raiseFault; split <;> rfl
@[simp] theorem State.raiseFault_cellRaw (s : State) (x : Cause) : (s.raiseFault x).cellRaw = s.cellRaw := by
  unfold State.raiseFault; split <;> rfl
@[simp] theorem State.raiseFault_tvRaw (s : State) (x : Cause) : (s.raiseFault x).tvRaw = s.tvRaw := by
  unfold State.raiseFault; split <;> rfl
@[simp] theorem State.raiseFault_auxT1 (s : State) (x : Cause) : (s.raiseFault x).auxT1 = s.auxT1 := by
  unfold State.raiseFault; split <;> rfl
@[simp] theorem State.raiseFault_aux5v (s : State) (x : Cause) : (s.raiseFault x).aux5v = s.aux5v := by
  unfold State.raiseFault; split <;> rfl
@[simp] theorem State.raiseFault_auxT2 (s : State) (x : Cause) : (s.raiseFault x).auxT2 = s.auxT2 := by
  unfold State.raiseFault; split <;> rfl
@[simp] theorem State.raiseFault_cfgW0 (s : State) (x : Cause) : (s.raiseFault x).cfgW0 = s.cfgW0 := by
  unfold State.raiseFault; split <;> rfl
@[simp] theorem State.raiseFault_cfgW1 (s : State) (x : Cause) : (s.raiseFault x).cfgW1 = s.cfgW1 := by
  unfold State.raiseFault; split <;> rfl
@[simp] theorem State.raiseFault_tempRaw (s : State) (x : Cause) : (s.raiseFault x).tempRaw = s.tempRaw := by
  unfold State.raiseFault; split <;> rfl
@[simp] theorem State.raiseFault_pending (s : State) (x : Cause) : (s.raiseFault x).pending = s.pending := by
  unfold State.raiseFault; split <;> rfl
@[simp] theorem State.raiseFault_readData (s : State) (x : Cause) : (s.raiseFault x).readData = s.readData := by
  unfold State.raiseFault; split <;> rfl
@[simp] theorem State.raiseFault_phase (s : State) (x : Cause) :
    (s.raiseFault x).status.phase = s.status.phase := by
  unfold State.raiseFault; split <;> rfl
/-- `ERR` is 1 after any fault (R25). -/
@[simp] theorem State.raiseFault_err (s : State) (x : Cause) : (s.raiseFault x).status.err = true := by
  unfold State.raiseFault; split <;> simp_all
/-- The first cause wins (R213). -/
theorem State.raiseFault_cause (s : State) (x : Cause) :
    (s.raiseFault x).status.cause = if s.status.err then s.status.cause else x := by
  unfold State.raiseFault; split <;> rfl
/-- A fault while `ERR = 1` changes nothing (R213). -/
theorem State.raiseFault_of_err {s : State} {x : Cause} (h : s.status.err = true) : s.raiseFault x = s := by
  simp [State.raiseFault, h]
/-- The first fault: `ERR` and `CAUSE` are recorded and nothing else changes (R213). -/
theorem State.raiseFault_of_not_err {s : State} {x : Cause} (h : s.status.err = false) :
    s.raiseFault x = { s with status := ⟨true, x, s.status.phase⟩ } := by
  simp [State.raiseFault, h]

/-! ### Issuing a command and the reset input -/

@[simp] theorem State.issue_pending (s : State) (w : Word) :
    (s.issue w).pending = .wr32 cmdAddr w :: s.pending := rfl
@[simp] theorem State.issue_cmd (s : State) (w : Word) : (s.issue w).cmd = s.cmd := rfl
@[simp] theorem State.issue_status (s : State) (w : Word) : (s.issue w).status = s.status := rfl
@[simp] theorem State.issue_chipCount (s : State) (w : Word) : (s.issue w).chipCount = s.chipCount := rfl
@[simp] theorem State.issue_swap5v (s : State) (w : Word) : (s.issue w).swap5v = s.swap5v := rfl
@[simp] theorem State.issue_validMap (s : State) (w : Word) : (s.issue w).validMap = s.validMap := rfl
@[simp] theorem State.issue_crc8Res (s : State) (w : Word) : (s.issue w).crc8Res = s.crc8Res := rfl
@[simp] theorem State.issue_crc14Res (s : State) (w : Word) : (s.issue w).crc14Res = s.crc14Res := rfl
@[simp] theorem State.issue_crc14Init (s : State) (w : Word) : (s.issue w).crc14Init = s.crc14Init := rfl
@[simp] theorem State.issue_balMask (s : State) (w : Word) : (s.issue w).balMask = s.balMask := rfl
@[simp] theorem State.issue_mem (s : State) (w : Word) : (s.issue w).mem = s.mem := rfl
@[simp] theorem State.issue_cellRaw (s : State) (w : Word) : (s.issue w).cellRaw = s.cellRaw := rfl
@[simp] theorem State.issue_tvRaw (s : State) (w : Word) : (s.issue w).tvRaw = s.tvRaw := rfl
@[simp] theorem State.issue_auxT1 (s : State) (w : Word) : (s.issue w).auxT1 = s.auxT1 := rfl
@[simp] theorem State.issue_aux5v (s : State) (w : Word) : (s.issue w).aux5v = s.aux5v := rfl
@[simp] theorem State.issue_auxT2 (s : State) (w : Word) : (s.issue w).auxT2 = s.auxT2 := rfl
@[simp] theorem State.issue_cfgW0 (s : State) (w : Word) : (s.issue w).cfgW0 = s.cfgW0 := rfl
@[simp] theorem State.issue_cfgW1 (s : State) (w : Word) : (s.issue w).cfgW1 = s.cfgW1 := rfl
@[simp] theorem State.issue_tempRaw (s : State) (w : Word) : (s.issue w).tempRaw = s.tempRaw := rfl
@[simp] theorem State.issue_readData (s : State) (w : Word) : (s.issue w).readData = s.readData := rfl
@[simp] theorem State.resetInput_cmd (s : State) : s.resetInput.cmd = State.reset.cmd := rfl
@[simp] theorem State.resetInput_status (s : State) : s.resetInput.status = State.reset.status := rfl
@[simp] theorem State.resetInput_chipCount (s : State) : s.resetInput.chipCount = State.reset.chipCount := rfl
@[simp] theorem State.resetInput_swap5v (s : State) : s.resetInput.swap5v = State.reset.swap5v := rfl
@[simp] theorem State.resetInput_validMap (s : State) : s.resetInput.validMap = State.reset.validMap := rfl
@[simp] theorem State.resetInput_crc8Res (s : State) : s.resetInput.crc8Res = State.reset.crc8Res := rfl
@[simp] theorem State.resetInput_crc14Res (s : State) : s.resetInput.crc14Res = State.reset.crc14Res := rfl
@[simp] theorem State.resetInput_crc14Init (s : State) : s.resetInput.crc14Init = State.reset.crc14Init := rfl
@[simp] theorem State.resetInput_balMask (s : State) : s.resetInput.balMask = State.reset.balMask := rfl
@[simp] theorem State.resetInput_mem (s : State) : s.resetInput.mem = State.reset.mem := rfl
@[simp] theorem State.resetInput_cellRaw (s : State) : s.resetInput.cellRaw = State.reset.cellRaw := rfl
@[simp] theorem State.resetInput_tvRaw (s : State) : s.resetInput.tvRaw = State.reset.tvRaw := rfl
@[simp] theorem State.resetInput_auxT1 (s : State) : s.resetInput.auxT1 = State.reset.auxT1 := rfl
@[simp] theorem State.resetInput_aux5v (s : State) : s.resetInput.aux5v = State.reset.aux5v := rfl
@[simp] theorem State.resetInput_auxT2 (s : State) : s.resetInput.auxT2 = State.reset.auxT2 := rfl
@[simp] theorem State.resetInput_cfgW0 (s : State) : s.resetInput.cfgW0 = State.reset.cfgW0 := rfl
@[simp] theorem State.resetInput_cfgW1 (s : State) : s.resetInput.cfgW1 = State.reset.cfgW1 := rfl
@[simp] theorem State.resetInput_tempRaw (s : State) : s.resetInput.tempRaw = State.reset.tempRaw := rfl
@[simp] theorem State.resetInput_pending (s : State) : s.resetInput.pending = s.pending := rfl
@[simp] theorem State.resetInput_readData (s : State) : s.resetInput.readData = s.readData := rfl

/-! ### Buffer bytes: they depend on `mem` alone -/

/-- Two states with the same byte memory have the same buffer bytes. -/
theorem State.bufByte_congr {s t : State} (h : t.mem = s.mem) (buf : Buf) (i : Nat) :
    t.bufByte buf i = s.bufByte buf i := by
  simp [State.bufByte, h]

@[simp] theorem State.bufByte_putStore (s : State) (w : Half) (d : Store) (buf : Buf) (i : Nat) :
    (s.putStore w d).bufByte buf i = s.bufByte buf i := State.bufByte_congr (by simp) buf i

@[simp] theorem State.bufByte_raiseFault (s : State) (x : Cause) (buf : Buf) (i : Nat) :
    (s.raiseFault x).bufByte buf i = s.bufByte buf i := State.bufByte_congr (by simp) buf i

@[simp] theorem State.bufByte_invertPhase (s : State) (buf : Buf) (i : Nat) :
    s.invertPhase.bufByte buf i = s.bufByte buf i := rfl

/-! ### The stores -/

/-- A store write changes the element it goes to and no other. -/
theorem State.getStore_putStore (s : State) (w : Half) (d d' : Store) :
    (s.putStore w d).getStore d' = if d' = d then w else s.getStore d' := by
  cases d <;> cases d' <;>
    simp only [State.putStore, State.getStore, Store.cellRaw.injEq, Store.tvRaw.injEq, Store.auxT1.injEq,
      Store.aux5v.injEq, Store.auxT2.injEq, Store.cfgW0.injEq, Store.cfgW1.injEq, Store.tempRaw.injEq,
      reduceCtorEq, if_false, Fin.getElem_fin, Vector.getElem_set, Fin.ext_iff]
  case cellRaw.cellRaw c k c' k' =>
    by_cases hc : c'.val = c.val
    · by_cases hk : k'.val = k.val
      · simp [hc, hk]
      · simp [hc, hk, Ne.symm hk]
    · simp [hc, Ne.symm hc]
  all_goals (simp only [eq_comm])

/-- Two states that agree on every field but the stores, and on every store element, are equal. -/
theorem State.ext_of_stores {s t : State} (hs : ∀ d : Store, t.getStore d = s.getStore d)
    (h : t = { s with cellRaw := t.cellRaw, tvRaw := t.tvRaw, auxT1 := t.auxT1, aux5v := t.aux5v, auxT2 := t.auxT2,
                      cfgW0 := t.cfgW0, cfgW1 := t.cfgW1, tempRaw := t.tempRaw }) : t = s := by
  have hcell : t.cellRaw = s.cellRaw :=
    Vector.ext fun c hc => Vector.ext fun k hk => hs (.cellRaw ⟨c, hc⟩ ⟨k, hk⟩)
  have h_tvRaw : t.tvRaw = s.tvRaw :=
    Vector.ext fun c hc => hs (.tvRaw ⟨c, hc⟩)
  have h_auxT1 : t.auxT1 = s.auxT1 :=
    Vector.ext fun c hc => hs (.auxT1 ⟨c, hc⟩)
  have h_aux5v : t.aux5v = s.aux5v :=
    Vector.ext fun c hc => hs (.aux5v ⟨c, hc⟩)
  have h_auxT2 : t.auxT2 = s.auxT2 :=
    Vector.ext fun c hc => hs (.auxT2 ⟨c, hc⟩)
  have h_cfgW0 : t.cfgW0 = s.cfgW0 :=
    Vector.ext fun c hc => hs (.cfgW0 ⟨c, hc⟩)
  have h_cfgW1 : t.cfgW1 = s.cfgW1 :=
    Vector.ext fun c hc => hs (.cfgW1 ⟨c, hc⟩)
  have h_tempRaw : t.tempRaw = s.tempRaw :=
    Vector.ext fun c hc => hs (.tempRaw ⟨c, hc⟩)
  rw [h, hcell, h_tvRaw, h_auxT1, h_aux5v, h_auxT2, h_cfgW0, h_cfgW1, h_tempRaw]

/-- A store write changes nothing but the stores. -/
theorem State.putStore_frame (s : State) (w : Half) (d : Store) :
    s.putStore w d =
      { s with cellRaw := (s.putStore w d).cellRaw, tvRaw := (s.putStore w d).tvRaw,
               auxT1 := (s.putStore w d).auxT1, aux5v := (s.putStore w d).aux5v,
               auxT2 := (s.putStore w d).auxT2, cfgW0 := (s.putStore w d).cfgW0,
               cfgW1 := (s.putStore w d).cfgW1, tempRaw := (s.putStore w d).tempRaw } := by
  cases d <;> rfl

end Sys2Proof.Machine
end

