-- ==== Sys2Proof/Laws/DecodeLoop.lean ====
section
/-! SUPPORT. What the shared loop of the decode commands can do (42_codec_decode.md rules R150, R152, R163), said once: the
stores it writes, the stores it leaves alone, `VALIDMAP`, and that nothing else changes. -/

namespace Sys2Proof.Machine

/-- `t` differs from `s` in the stores only. -/
def OnlyStores (s t : State) : Prop :=
  t = { s with cellRaw := t.cellRaw, tvRaw := t.tvRaw, auxT1 := t.auxT1, aux5v := t.aux5v, auxT2 := t.auxT2,
               cfgW0 := t.cfgW0, cfgW1 := t.cfgW1, tempRaw := t.tempRaw }

theorem OnlyStores.refl (s : State) : OnlyStores s s := rfl

theorem OnlyStores.trans {s t u : State} (h : OnlyStores s t) (h' : OnlyStores t u) : OnlyStores s u := by
  unfold OnlyStores at *
  rw [h'.trans (by rw [h])]

theorem OnlyStores.putStore (s : State) (w : Half) (d : Store) : OnlyStores s (s.putStore w d) :=
  State.putStore_frame s w d

/-- The chip position a store element belongs to. -/
def Store.chip : Store → Chip
  | .cellRaw c _ => c
  | .tvRaw c => c
  | .auxT1 c => c
  | .aux5v c => c
  | .auxT2 c => c
  | .cfgW0 c => c
  | .cfgW1 c => c
  | .tempRaw c => c

/-- What a chip's word makes of its destination's old value (R163). -/
def accepted (w old : Half) : Half := if w = Config.sentinel then old else w

theorem accepted_eq (w old : Half) : accepted w old = if w = 0xFFFF then old else w := rfl

/-! ### One word -/

theorem State.accept_of_sentinel (s : State) (d : Store) : s.accept d Config.sentinel = (s, false) := by
  simp [State.accept]

theorem State.accept_of_ne {s : State} {d : Store} {w : Half} (h : w ≠ Config.sentinel) :
    s.accept d w = (s.putStore w d, true) := by
  simp [State.accept, h]

/-- Whether the word was accepted (R163). -/
@[simp] theorem State.accept_snd (s : State) (d : Store) (w : Half) :
    (s.accept d w).2 = decide (w ≠ Config.sentinel) := by
  unfold State.accept; split <;> simp_all

/-- What accepting a word does to every store element (R163). -/
theorem State.getStore_accept (s : State) (d d' : Store) (w : Half) :
    (s.accept d w).1.getStore d' = if d' = d then accepted w (s.getStore d') else s.getStore d' := by
  unfold State.accept accepted
  split
  · simp
  · simp only [State.getStore_putStore]

theorem OnlyStores.accept (s : State) (d : Store) (w : Half) : OnlyStores s (s.accept d w).1 := by
  unfold State.accept
  split
  · exact OnlyStores.refl s
  · exact OnlyStores.putStore s w d

/-! ### One chip -/

theorem acceptAll_foldl (l : Samples) (s : State) (b : Bool) :
    l.foldl (fun acc p => ((acc.1.accept p.1 p.2).1, acc.2 || (acc.1.accept p.1 p.2).2)) (s, b)
      = ((acceptAll l s).1, b || (acceptAll l s).2) := by
  induction l generalizing s b with
  | nil => simp [acceptAll]
  | cons p rest ih =>
    simp only [acceptAll, List.foldl_cons, Bool.false_or] at ih ⊢
    rw [ih, ih (s.accept p.1 p.2).1 ((s.accept p.1 p.2).2), Bool.or_assoc]

theorem acceptAll_cons (d : Store) (w : Half) (l : Samples) (s : State) :
    acceptAll ((d, w) :: l) s
      = ((acceptAll l (s.accept d w).1).1, decide (w ≠ Config.sentinel) || (acceptAll l (s.accept d w).1).2) := by
  rw [acceptAll, List.foldl_cons, acceptAll_foldl]
  simp

/-- A chip is marked exactly when one of its words is no sentinel (R150). -/
theorem acceptAll_snd (l : Samples) (s : State) :
    (acceptAll l s).2 = l.any fun p => decide (p.2 ≠ Config.sentinel) := by
  induction l generalizing s with
  | nil => rfl
  | cons p rest ih =>
    obtain ⟨d, w⟩ := p
    rw [acceptAll_cons, ih, List.any_cons]

/-- A store element no word goes to keeps its value. -/
theorem getStore_acceptAll_of_not_mem {l : Samples} {s : State} {d : Store} (h : d ∉ l.map Prod.fst) :
    (acceptAll l s).1.getStore d = s.getStore d := by
  induction l generalizing s with
  | nil => rfl
  | cons p rest ih =>
    obtain ⟨d', w⟩ := p
    simp only [List.map_cons, List.mem_cons, not_or] at h
    rw [acceptAll_cons, ih h.2, State.getStore_accept, if_neg h.1]

/-- Each word reaches its own destination, whatever the chip's other words are (R163). -/
theorem getStore_acceptAll_of_mem {l : Samples} {s : State} {d : Store} {w : Half}
    (hd : (l.map Prod.fst).Nodup) (h : (d, w) ∈ l) :
    (acceptAll l s).1.getStore d = accepted w (s.getStore d) := by
  induction l generalizing s with
  | nil => simp at h
  | cons p rest ih =>
    obtain ⟨d', w'⟩ := p
    simp only [List.map_cons, List.nodup_cons] at hd
    rw [acceptAll_cons]
    rcases List.mem_cons.mp h with heq | hmem
    · obtain ⟨rfl, rfl⟩ := Prod.mk.inj heq
      rw [getStore_acceptAll_of_not_mem hd.1, State.getStore_accept, if_pos rfl]
    · have hne : d ≠ d' := by
        rintro rfl
        exact hd.1 (List.mem_map.mpr ⟨(d, w), hmem, rfl⟩)
      rw [ih hd.2 hmem, State.getStore_accept, if_neg hne]

theorem OnlyStores.acceptAll (l : Samples) (s : State) : OnlyStores s (acceptAll l s).1 := by
  induction l generalizing s with
  | nil => exact OnlyStores.refl s
  | cons p rest ih =>
    obtain ⟨d, w⟩ := p
    rw [acceptAll_cons]
    exact (OnlyStores.accept s d w).trans (ih _)

/-! ### The loop -/

/-- Every word of a chip goes to a store element of that chip, each to one of its own. -/
structure Sorted (samples : Chip → Samples) : Prop where
  chip : ∀ c, ∀ p ∈ samples c, p.1.chip = c
  nodup : ∀ c, ((samples c).map Prod.fst).Nodup

theorem Sorted.not_mem {samples : Chip → Samples} (hs : Sorted samples) {c c' : Chip} {d : Store} {w : Half}
    (h : (d, w) ∈ samples c) (hc : c' ≠ c) : d ∉ (samples c').map Prod.fst := by
  intro hmem
  obtain ⟨p, hp, rfl⟩ := List.mem_map.mp hmem
  exact hc ((hs.chip c' p hp).symm.trans (hs.chip c (p.1, w) h))

theorem getStore_foldl_of_not_mem {samples : Chip → Samples} {d : Store} {l : List Chip}
    (h : ∀ c ∈ l, d ∉ (samples c).map Prod.fst) (acc : State × Byte) :
    (l.foldl (decodeChip samples) acc).1.getStore d = acc.1.getStore d := by
  induction l generalizing acc with
  | nil => rfl
  | cons c rest ih =>
    rw [List.foldl_cons, ih (fun c' hc' => h c' (List.mem_cons_of_mem _ hc'))]
    exact getStore_acceptAll_of_not_mem (h c List.mem_cons_self)

theorem getStore_foldl_of_mem {samples : Chip → Samples} (hs : Sorted samples) {c : Chip} {d : Store} {w : Half}
    (h : (d, w) ∈ samples c) {l : List Chip} (hl : l.Nodup) (hc : c ∈ l) (acc : State × Byte) :
    (l.foldl (decodeChip samples) acc).1.getStore d = accepted w (acc.1.getStore d) := by
  induction l generalizing acc with
  | nil => simp at hc
  | cons c' rest ih =>
    rw [List.nodup_cons] at hl
    rw [List.foldl_cons]
    by_cases heq : c' = c
    · subst heq
      rw [getStore_foldl_of_not_mem (fun c'' hc'' => hs.not_mem h (fun e => hl.1 (e ▸ hc'')))]
      exact getStore_acceptAll_of_mem (hs.nodup c') h
    · rw [ih hl.2 ((List.mem_cons.mp hc).resolve_left (Ne.symm heq))]
      exact congrArg (accepted w) (getStore_acceptAll_of_not_mem (hs.not_mem h heq))

theorem OnlyStores.foldl_decodeChip (samples : Chip → Samples) (l : List Chip) (acc : State × Byte) :
    OnlyStores acc.1 (l.foldl (decodeChip samples) acc).1 := by
  induction l generalizing acc with
  | nil => exact OnlyStores.refl _
  | cons c rest ih => exact (OnlyStores.acceptAll (samples c) acc.1).trans (ih _)

/-- The bit `markChip` sets. -/
theorem getLsbD_markChip (v : Byte) (c c' : Chip) :
    (markChip v c).getLsbD c' = (v.getLsbD c' || decide (c' = c)) := by
  revert c c'
  simp only [markChip, BitVec.getLsbD_or]
  intro c c'
  congr 1
  revert c c'
  decide

theorem getLsbD_foldl_decodeChip (samples : Chip → Samples) (l : List Chip) (acc : State × Byte) (c : Chip) :
    (l.foldl (decodeChip samples) acc).2.getLsbD c
      = (acc.2.getLsbD c || (decide (c ∈ l) && (samples c).any fun p => decide (p.2 ≠ Config.sentinel))) := by
  induction l generalizing acc with
  | nil => simp
  | cons c' rest ih =>
    rw [List.foldl_cons, ih]
    simp only [decodeChip, acceptAll_snd, List.mem_cons]
    by_cases heq : c = c'
    · subst heq
      split
      · rename_i hany
        rw [getLsbD_markChip, hany]; simp
      · rename_i hany
        rw [Bool.not_eq_true] at hany
        rw [hany]; simp
    · split
      · rw [getLsbD_markChip]; simp [heq]
      · simp [heq]

theorem mem_allChips (c : Chip) : c ∈ allChips := List.mem_finRange c

theorem nodup_allChips : allChips.Nodup := List.nodup_finRange _

theorem nodup_activeChips (s : State) : s.activeChips.Nodup := List.Nodup.filter _ nodup_allChips

@[simp] theorem mem_activeChips (s : State) (c : Chip) : c ∈ s.activeChips ↔ c.val < s.chipCount.toNat := by
  simp [State.activeChips, mem_allChips]

/-- A word of an active chip reaches its destination unless it is the sentinel. -/
theorem getStore_decodeLoop_of_mem {samples : Chip → Samples} (hs : Sorted samples) {s : State} {c : Chip}
    {d : Store} {w : Half} (hc : c.val < s.chipCount.toNat) (h : (d, w) ∈ samples c) :
    (decodeLoop samples s).getStore d = accepted w (s.getStore d) :=
  getStore_foldl_of_mem hs h (nodup_activeChips s) ((mem_activeChips s c).mpr hc) (s, 0)

/-- A store element that no active chip has a word for keeps its value. -/
theorem getStore_decodeLoop_of_not_mem {samples : Chip → Samples} {s : State} {d : Store}
    (h : ∀ c : Chip, c.val < s.chipCount.toNat → d ∉ (samples c).map Prod.fst) :
    (decodeLoop samples s).getStore d = s.getStore d :=
  getStore_foldl_of_not_mem (fun c hc => h c ((mem_activeChips s c).mp hc)) (s, 0)

/-- A word's destination after the loop, whether or not its chip takes part (R150, R163). -/
theorem getStore_decodeLoop_sample {samples : Chip → Samples} (hs : Sorted samples) {s : State} {c : Chip}
    {d : Store} {w : Half} (h : (d, w) ∈ samples c) :
    (decodeLoop samples s).getStore d =
      if c.val < s.chipCount.toNat then accepted w (s.getStore d) else s.getStore d := by
  split
  · rename_i hc
    exact getStore_decodeLoop_of_mem hs hc h
  · rename_i hc
    refine getStore_decodeLoop_of_not_mem fun c' hc' => hs.not_mem h ?_
    rintro rfl
    exact hc hc'

/-- `VALIDMAP` after a decode (R152). -/
theorem getLsbD_validMap_decodeLoop (samples : Chip → Samples) (s : State) (c : Chip) :
    (decodeLoop samples s).validMap.getLsbD c
      = (decide (c.val < s.chipCount.toNat) && (samples c).any fun p => decide (p.2 ≠ Config.sentinel)) := by
  have h := getLsbD_foldl_decodeChip samples s.activeChips (s, 0) c
  simpa [decodeLoop] using h

/-- A decode changes the stores and `VALIDMAP` only. -/
theorem OnlyStores.decodeLoop (samples : Chip → Samples) (s : State) :
    OnlyStores { s with validMap := (decodeLoop samples s).validMap } (decodeLoop samples s) := by
  have h := OnlyStores.foldl_decodeChip samples s.activeChips (s, 0)
  unfold OnlyStores at h ⊢
  simp only [Machine.decodeLoop]
  conv_lhs => rw [h]

/-! ### The register types' words -/

/-- The words of a group have slots of their own. -/
theorem slotOf_injective (g : Group) : Function.Injective (slotOf g) := by
  intro k k' h
  exact Fin.ext (Nat.add_left_cancel (congrArg Fin.val h))

/-- Which word goes to which slot of a cell-voltage group (R153 to R157). -/
theorem mem_cellSamples {s : State} {g : Group} {c : Chip} (k : Fin Config.groupCells) :
    (.cellRaw c (slotOf g k), s.le16 (dataWordAt Config.strideCv c k)) ∈ s.cellSamples g c :=
  List.mem_map.mpr ⟨k, List.mem_finRange k, rfl⟩

theorem sorted_cellSamples (s : State) (g : Group) : Sorted (s.cellSamples g) where
  chip := by
    intro c p hp
    obtain ⟨k, -, rfl⟩ := List.mem_map.mp hp
    rfl
  nodup := by
    intro c
    simp only [State.cellSamples, List.map_map]
    refine List.Nodup.map (fun k k' h => ?_) (List.nodup_finRange _)
    exact slotOf_injective g (Store.cellRaw.inj h).2

theorem sorted_tvSamples (s : State) : Sorted s.tvSamples where
  chip := by simp [State.tvSamples, Store.chip]
  nodup := by simp [State.tvSamples]

theorem sorted_auxSamples (s : State) : Sorted s.auxSamples where
  chip := by simp [State.auxSamples, Store.chip]
  nodup := by simp [State.auxSamples]

theorem sorted_cfgSamples (s : State) : Sorted s.cfgSamples where
  chip := by simp [State.cfgSamples, Store.chip]
  nodup := by simp [State.cfgSamples]

theorem sorted_tempSamples (s : State) : Sorted s.tempSamples where
  chip := by simp [State.tempSamples, Store.chip]
  nodup := by simp [State.tempSamples]

end Sys2Proof.Machine
end

