-- ==== Sys2Proof/Laws/Memory.lean ====
section
/-! SUPPORT. The laws of the byte memory: a read after a write, and that every write keeps the canonical form and stays
inside the buffers. -/

namespace Sys2Proof.Machine

/-- No cell of cells that lie above `low` has an address at or below it. -/
theorem readCells_of_risingAbove {low a : Nat} {cells : List Host.Cell}
    (h : risingAbove (some low) cells = true) (ha : a ≤ low) : readCells a cells = Memory.unlisted := by
  induction cells generalizing low with
  | nil => rfl
  | cons cell rest ih =>
    obtain ⟨b, u⟩ := cell
    simp only [risingAbove, Bool.and_eq_true, decide_eq_true_eq] at h
    rw [readCells, if_neg (by omega)]
    exact ih h.2 (by omega)

/-- A lower bound may be lowered. -/
theorem risingAbove_mono {low low' : Nat} {cells : List Host.Cell}
    (h : risingAbove (some low) cells = true) (hl : low' ≤ low) : risingAbove (some low') cells = true := by
  cases cells with
  | nil => rfl
  | cons cell rest =>
    obtain ⟨b, u⟩ := cell
    simp only [risingAbove, Bool.and_eq_true, decide_eq_true_eq] at h ⊢
    exact ⟨⟨by omega, h.1.2⟩, h.2⟩

/-- A bound may be dropped. -/
theorem risingAbove_none {low : Nat} {cells : List Host.Cell}
    (h : risingAbove (some low) cells = true) : risingAbove none cells = true := by
  cases cells with
  | nil => rfl
  | cons cell rest =>
    simp only [risingAbove, Bool.and_eq_true, decide_eq_true_eq] at h ⊢
    exact ⟨⟨trivial, h.1.2⟩, h.2⟩

/-- Putting a cell for `a` in front of cells above `a` keeps the form, above any bound below `a`. -/
theorem risingAbove_consCell {low : Option Nat} {a : Nat} {v : Byte} {rest : List Host.Cell}
    (hlow : ∀ l, low = some l → l < a) (h : risingAbove (some a) rest = true) :
    risingAbove low (consCell a v rest) = true := by
  unfold consCell
  split
  · cases low with
    | none => exact risingAbove_none h
    | some l => exact risingAbove_mono h (Nat.le_of_lt (hlow l rfl))
  · rename_i hv
    cases low with
    | none => simp [risingAbove, hv, h]
    | some l => simp [risingAbove, hv, h, hlow l rfl]

/-- A write keeps the canonical form of the cells, above any bound below the address. -/
theorem risingAbove_writeCells {low : Option Nat} {a : Nat} {v : Byte} {cells : List Host.Cell}
    (hlow : ∀ l, low = some l → l < a) (h : risingAbove low cells = true) :
    risingAbove low (writeCells a v cells) = true := by
  induction cells generalizing low with
  | nil => exact risingAbove_consCell hlow rfl
  | cons cell rest ih =>
    obtain ⟨b, u⟩ := cell
    have hb : risingAbove (some b) rest = true := by
      simp only [risingAbove, Bool.and_eq_true] at h; exact h.2
    have hu : u ≠ Memory.unlisted := by
      simp only [risingAbove, Bool.and_eq_true, decide_eq_true_eq] at h; exact h.1.2
    unfold writeCells
    split
    · rename_i hab
      exact risingAbove_consCell hlow (by simp [risingAbove, hab, hu, hb])
    · split
      · rename_i _ hab
        subst hab
        exact risingAbove_consCell hlow hb
      · rename_i h1 h2
        have := ih (low := some b) (by rintro l ⟨⟩; omega) hb
        simp only [risingAbove, Bool.and_eq_true, decide_eq_true_eq] at h ⊢
        exact ⟨h.1, this⟩

theorem readCells_consCell_same {a : Nat} {v : Byte} {rest : List Host.Cell}
    (h : risingAbove (some a) rest = true) : readCells a (consCell a v rest) = v := by
  unfold consCell
  split
  · rename_i hv
    rw [hv]; exact readCells_of_risingAbove h (Nat.le_refl a)
  · simp [readCells]

theorem readCells_consCell_other {a a' : Nat} {v : Byte} {rest : List Host.Cell} (h : a' ≠ a) :
    readCells a' (consCell a v rest) = readCells a' rest := by
  unfold consCell
  split <;> simp [readCells, h]

theorem readCells_writeCells_same {low : Option Nat} {a : Nat} {v : Byte} {cells : List Host.Cell}
    (h : risingAbove low cells = true) : readCells a (writeCells a v cells) = v := by
  induction cells generalizing low with
  | nil => exact readCells_consCell_same rfl
  | cons cell rest ih =>
    obtain ⟨b, u⟩ := cell
    have hb : risingAbove (some b) rest = true := by
      simp only [risingAbove, Bool.and_eq_true] at h; exact h.2
    have hu : u ≠ Memory.unlisted := by
      simp only [risingAbove, Bool.and_eq_true, decide_eq_true_eq] at h; exact h.1.2
    unfold writeCells
    split
    · rename_i hab
      exact readCells_consCell_same (by simp [risingAbove, hab, hu, hb])
    · split
      · rename_i _ hab
        subst hab
        exact readCells_consCell_same hb
      · rename_i _ hab
        rw [readCells, if_neg hab]
        exact ih hb

theorem readCells_writeCells_other {a a' : Nat} {v : Byte} {cells : List Host.Cell} (h : a' ≠ a) :
    readCells a' (writeCells a v cells) = readCells a' cells := by
  induction cells with
  | nil => exact readCells_consCell_other h
  | cons cell rest ih =>
    obtain ⟨b, u⟩ := cell
    unfold writeCells
    split
    · exact readCells_consCell_other h
    · split
      · rename_i _ hab
        subst hab
        rw [readCells_consCell_other h, readCells, if_neg h]
      · simp only [readCells, ih]

/-- Reading the byte just written gives the value written, in a memory of canonical form. -/
theorem Memory.read_write_same {m : Memory} {a : Nat} {v : Byte} (h : m.wf = true) :
    (m.write a v).read a = v := readCells_writeCells_same h

/-- A write leaves every other byte alone. -/
theorem Memory.read_write_other {m : Memory} {a a' : Nat} {v : Byte} (h : a' ≠ a) :
    (m.write a v).read a' = m.read a' := readCells_writeCells_other h

/-- What a write does to every byte. -/
theorem Memory.read_write {m : Memory} {a a' : Nat} {v : Byte} (h : m.wf = true) :
    (m.write a v).read a' = if a' = a then v else m.read a' := by
  split
  · rename_i heq; rw [heq, Memory.read_write_same h]
  · rename_i hne; exact Memory.read_write_other hne

/-- A write keeps the canonical form. -/
theorem Memory.wf_write {m : Memory} {a : Nat} {v : Byte} (h : m.wf = true) : (m.write a v).wf = true :=
  risingAbove_writeCells (by simp) h

theorem writeCells_cons (a : Nat) (v : Byte) (b : Nat) (u : Byte) (rest : List Host.Cell) :
    writeCells a v ((b, u) :: rest) =
      if a < b then consCell a v ((b, u) :: rest)
      else if a = b then consCell a v rest
      else (b, u) :: writeCells a v rest := rfl

theorem writeCells_consCell {a : Nat} {v : Byte} {rest : List Host.Cell} (h : risingAbove (some a) rest = true) :
    writeCells a v (consCell a v rest) = consCell a v rest := by
  by_cases hv : v = Memory.unlisted
  · cases rest with
    | nil => simp [consCell, hv, writeCells]
    | cons p rest =>
      obtain ⟨b, u⟩ := p
      simp only [risingAbove, Bool.and_eq_true, decide_eq_true_eq] at h
      simp [consCell, hv, writeCells_cons, h.1.1]
  · simp [consCell, hv, writeCells_cons]

/-- Writing the same byte twice is writing it once. -/
theorem writeCells_writeCells {low : Option Nat} {a : Nat} {v : Byte} {cells : List Host.Cell}
    (h : risingAbove low cells = true) : writeCells a v (writeCells a v cells) = writeCells a v cells := by
  induction cells generalizing low with
  | nil => exact writeCells_consCell rfl
  | cons p rest ih =>
    obtain ⟨b, u⟩ := p
    simp only [risingAbove, Bool.and_eq_true, decide_eq_true_eq] at h
    rw [writeCells_cons]
    split
    · rename_i hlt
      exact writeCells_consCell (by simp [risingAbove, hlt, h.1.2, h.2])
    · split
      · rename_i heq
        subst heq
        exact writeCells_consCell h.2
      · rename_i h1 h2
        rw [writeCells_cons, if_neg h1, if_neg h2, ih h.2]

theorem Memory.write_write_same {m : Memory} {a : Nat} {v : Byte} (h : m.wf = true) :
    (m.write a v).write a v = m.write a v := by
  simp only [Memory.write]
  rw [writeCells_writeCells h]

/-- The memory at reset has the canonical form. -/
theorem Memory.wf_reset : State.reset.mem.wf = true := rfl

theorem all_writeCells {p : Host.Cell → Bool} {a : Nat} {v : Byte} {cells : List Host.Cell}
    (hp : p (a, v) = true) (h : cells.all p = true) : (writeCells a v cells).all p = true := by
  have hcons : ∀ rest : List Host.Cell, rest.all p = true → (consCell a v rest).all p = true := by
    intro rest hr; unfold consCell; split <;> simp_all
  induction cells with
  | nil => exact hcons [] rfl
  | cons cell rest ih =>
    obtain ⟨b, u⟩ := cell
    simp only [List.all_cons, Bool.and_eq_true] at h
    unfold writeCells
    split
    · exact hcons _ (by simp only [List.all_cons, h.1, h.2, Bool.and_self])
    · split
      · exact hcons _ h.2
      · simp only [List.all_cons, h.1, ih h.2, Bool.and_self]

/-- A write to a byte of `RX` keeps every cell inside the buffers. -/
theorem Memory.inBuffers_write_rx {m : Memory} {i : Nat} {v : Byte} (hi : i < Config.rxSize)
    (h : m.inBuffers = true) : (m.write (bufBase .rx + i) v).inBuffers = true :=
  all_writeCells (by simp [bufBase]; exact Or.inl hi) h

/-- A write to a byte of `TX` keeps every cell inside the buffers. -/
theorem Memory.inBuffers_write_tx {m : Memory} {i : Nat} {v : Byte} (hi : i < Config.txSize)
    (h : m.inBuffers = true) : (m.write (bufBase .tx + i) v).inBuffers = true :=
  all_writeCells (by simp [bufBase] at *; omega) h

end Sys2Proof.Machine
end

