-- ==== Sys2Proof/Laws/Encode.lean ====
section
/-! SUPPORT. What writing configuration frames can do (43_codec_encode.md rules R190 to R194), said once: the six bytes of a
frame, every other byte, and that nothing but `mem` changes. -/

namespace Sys2Proof.Machine

/-- Bytes 0 to 3 of a frame, from the balance mask (R192). -/
def payloadOf (pattern : Byte) (bal : Half) : List Byte :=
  [Config.cfgAddr, Config.cfgByte1, bal.setWidth 8 &&& pattern, (bal >>> 8).setWidth 8 &&& pattern]

/-- The trailing word of a frame, from the balance mask and the seed (R193). -/
def crcWordOf (pattern : Byte) (bal : Half) (seed : Crc) : Half :=
  (crc14 seed (payloadOf pattern bal) 0 0).setWidth 16

/-- Byte `j` of a frame, from the balance mask and the seed (R192). -/
def frameByteOf (pattern : Byte) (bal : Half) (seed : Crc) : Nat → Byte
  | 0 => Config.cfgAddr
  | 1 => Config.cfgByte1
  | 2 => bal.setWidth 8 &&& pattern
  | 3 => (bal >>> 8).setWidth 8 &&& pattern
  | 4 => (crcWordOf pattern bal seed).setWidth 8
  | _ => (crcWordOf pattern bal seed >>> 8).setWidth 8

theorem State.read_txWrite {s : State} (h : s.mem.wf = true) (i a : Nat) (v : Byte) :
    (s.txWrite i v).mem.read a = if a = 0x080 + i then v else s.mem.read a := Memory.read_write h

theorem State.wf_txWrite {s : State} (h : s.mem.wf = true) (i : Nat) (v : Byte) : (s.txWrite i v).mem.wf = true :=
  Memory.wf_write h

theorem State.wf_writePayload {s : State} (h : s.mem.wf = true) (pattern : Byte) (c : Chip) :
    (s.writePayload pattern c).mem.wf = true :=
  State.wf_txWrite (State.wf_txWrite (State.wf_txWrite (State.wf_txWrite h _ _) _ _) _ _) _ _

theorem State.read_writePayload {s : State} (h : s.mem.wf = true) (pattern : Byte) (c : Chip) (a : Nat) :
    (s.writePayload pattern c).mem.read a =
      if a = 0x080 + (6 * c + 3) then frameByteOf pattern s.balMask[c] s.crcSeed 3
      else if a = 0x080 + (6 * c + 2) then frameByteOf pattern s.balMask[c] s.crcSeed 2
      else if a = 0x080 + (6 * c + 1) then frameByteOf pattern s.balMask[c] s.crcSeed 1
      else if a = 0x080 + 6 * c then frameByteOf pattern s.balMask[c] s.crcSeed 0
      else s.mem.read a := by
  have h1 := State.wf_txWrite h (frameAt c) Config.cfgAddr
  have h2 := State.wf_txWrite h1 (frameAt c + 1) Config.cfgByte1
  have h3 := State.wf_txWrite h2 (frameAt c + 2) (s.balMask[c].setWidth 8 &&& pattern)
  simp only [State.writePayload]
  rw [State.read_txWrite h3, State.read_txWrite h2, State.read_txWrite h1, State.read_txWrite h]
  rfl

/-- The four bytes the checksum covers are those just written. -/
theorem State.bufBytes_writePayload {s : State} (h : s.mem.wf = true) (pattern : Byte) (c : Chip) :
    (s.writePayload pattern c).bufBytes .tx (frameAt c) 4 = payloadOf pattern s.balMask[c] := by
  have hb : ∀ j, (s.writePayload pattern c).bufByte .tx (frameAt c + j)
      = (s.writePayload pattern c).mem.read (0x080 + (6 * c + j)) := fun _ => rfl
  simp only [State.bufBytes, List.range_succ, List.range_zero, List.nil_append, List.map_append, List.map_cons,
    List.map_nil, hb, State.read_writePayload h]
  simp [payloadOf, frameByteOf]

theorem State.frameCrc_writePayload {s : State} (h : s.mem.wf = true) (pattern : Byte) (c : Chip) :
    (s.writePayload pattern c).frameCrc c = crcWordOf pattern s.balMask[c] s.crcSeed := by
  have hs : (s.writePayload pattern c).crcSeed = s.crcSeed := by
    simp only [State.crcSeed, State.writePayload, State.txWrite_crc14Init]
  simp only [State.frameCrc, State.bufBytes_writePayload h, hs, crcWordOf]

/-- What writing chip `c`'s frame does to every byte. -/
theorem read_writeFrame {s : State} (h : s.mem.wf = true) (pattern : Byte) (c : Chip) (a : Nat) :
    (writeFrame pattern s c).mem.read a =
      if 0x080 + 6 * c ≤ a ∧ a < 0x080 + 6 * c + 6 then frameByteOf pattern s.balMask[c] s.crcSeed (a - (0x080 + 6 * c))
      else s.mem.read a := by
  have hc := c.isLt
  simp only [Config.maxChips] at hc
  have h4 := State.wf_writePayload h pattern c
  have h5 := State.wf_txWrite h4 (frameAt c + 4) (((s.writePayload pattern c).frameCrc c).setWidth 8)
  simp only [writeFrame, State.writeFrameCrc]
  rw [State.read_txWrite h5, State.read_txWrite h4, State.read_writePayload h, State.frameCrc_writePayload h]
  have hf : frameAt c = 6 * c := rfl
  simp only [hf]
  by_cases hr : 0x080 + 6 * c.val ≤ a ∧ a < 0x080 + 6 * c.val + 6
  · rw [if_pos hr]
    obtain ⟨j, hj, rfl⟩ : ∃ j, j < 6 ∧ a = 0x080 + 6 * c.val + j := ⟨a - (0x080 + 6 * c.val), by omega, by omega⟩
    rw [Nat.add_sub_cancel_left]
    have h6 : j = 0 ∨ j = 1 ∨ j = 2 ∨ j = 3 ∨ j = 4 ∨ j = 5 := by omega
    rcases h6 with rfl | rfl | rfl | rfl | rfl | rfl <;> simp [Nat.add_assoc, frameByteOf]
  · rw [if_neg hr, if_neg (by omega), if_neg (by omega), if_neg (by omega), if_neg (by omega), if_neg (by omega),
      if_neg (by omega)]

theorem wf_writeFrame {s : State} (h : s.mem.wf = true) (pattern : Byte) (c : Chip) :
    (writeFrame pattern s c).mem.wf = true := by
  unfold writeFrame State.writeFrameCrc
  exact State.wf_txWrite (State.wf_txWrite (State.wf_writePayload h pattern c) _ _) _ _

/-- `t` differs from `s` in the byte memory only. -/
def OnlyMem (s t : State) : Prop := t = { s with mem := t.mem }

theorem OnlyMem.refl (s : State) : OnlyMem s s := rfl

theorem OnlyMem.trans {s t u : State} (h : OnlyMem s t) (h' : OnlyMem t u) : OnlyMem s u := by
  unfold OnlyMem at *
  rw [h'.trans (by rw [h])]

theorem OnlyMem.txWrite (s : State) (i : Nat) (v : Byte) : OnlyMem s (s.txWrite i v) := rfl

/-- Writing a frame changes `mem` only. -/
theorem OnlyMem.writeFrame (pattern : Byte) (s : State) (c : Chip) : OnlyMem s (writeFrame pattern s c) := by
  unfold Machine.writeFrame State.writeFrameCrc State.writePayload
  exact (OnlyMem.txWrite s _ _).trans ((OnlyMem.txWrite _ _ _).trans ((OnlyMem.txWrite _ _ _).trans
    ((OnlyMem.txWrite _ _ _).trans ((OnlyMem.txWrite _ _ _).trans (OnlyMem.txWrite _ _ _)))))

theorem OnlyMem.balMask {s t : State} (h : OnlyMem s t) : t.balMask = s.balMask := by rw [h]

theorem OnlyMem.crcSeed {s t : State} (h : OnlyMem s t) : t.crcSeed = s.crcSeed := by rw [h]; rfl

theorem inBuffers_writeFrame {s : State} (h : s.mem.inBuffers = true) (pattern : Byte) (c : Chip) :
    (writeFrame pattern s c).mem.inBuffers = true := by
  have hc := c.isLt
  simp only [Config.maxChips] at hc
  have hf : frameAt c = 6 * c := rfl
  simp only [writeFrame, State.writeFrameCrc, State.writePayload, State.txWrite_mem, hf]
  repeat' apply Memory.inBuffers_write_tx (by simp only [Config.txSize]; omega)
  exact h

/-! ### All frames -/

/-- The frames of a list of chips change `mem` only. -/
theorem OnlyMem.foldl_writeFrame (pattern : Byte) (l : List Chip) (s : State) :
    OnlyMem s (l.foldl (Machine.writeFrame pattern) s) := by
  induction l generalizing s with
  | nil => exact OnlyMem.refl s
  | cons c rest ih =>
    rw [List.foldl_cons]
    exact (OnlyMem.writeFrame pattern s c).trans (ih (Machine.writeFrame pattern s c))

theorem wf_foldl_writeFrame {s : State} (h : s.mem.wf = true) (pattern : Byte) (l : List Chip) :
    (l.foldl (writeFrame pattern) s).mem.wf = true := by
  induction l generalizing s with
  | nil => exact h
  | cons c rest ih =>
    rw [List.foldl_cons]
    exact ih (wf_writeFrame h pattern c)

theorem inBuffers_foldl_writeFrame {s : State} (h : s.mem.inBuffers = true) (pattern : Byte) (l : List Chip) :
    (l.foldl (writeFrame pattern) s).mem.inBuffers = true := by
  induction l generalizing s with
  | nil => exact h
  | cons c rest ih =>
    rw [List.foldl_cons]
    exact ih (inBuffers_writeFrame h pattern c)

/-- A byte outside every frame keeps its value. -/
theorem read_foldl_writeFrame_other {s : State} (h : s.mem.wf = true) (pattern : Byte) {l : List Chip} {a : Nat}
    (ha : ∀ c ∈ l, ¬(0x080 + 6 * c.val ≤ a ∧ a < 0x080 + 6 * c.val + 6)) :
    (l.foldl (writeFrame pattern) s).mem.read a = s.mem.read a := by
  induction l generalizing s with
  | nil => rfl
  | cons c rest ih =>
    rw [List.foldl_cons, ih (wf_writeFrame h pattern c) (fun c' hc' => ha c' (List.mem_cons_of_mem _ hc')),
      read_writeFrame h, if_neg (ha c List.mem_cons_self)]

/-- The bytes of each chip's frame. -/
theorem read_foldl_writeFrame {s : State} (h : s.mem.wf = true) (pattern : Byte) {l : List Chip} (hl : l.Nodup)
    {c : Chip} (hc : c ∈ l) {j : Nat} (hj : j < 6) :
    (l.foldl (writeFrame pattern) s).mem.read (0x080 + 6 * c + j) = frameByteOf pattern s.balMask[c] s.crcSeed j := by
  induction l generalizing s with
  | nil => simp at hc
  | cons c' rest ih =>
    rw [List.nodup_cons] at hl
    rw [List.foldl_cons]
    by_cases heq : c' = c
    · subst heq
      have hne : ∀ c'' ∈ rest, ¬(0x080 + 6 * c''.val ≤ 0x080 + 6 * c'.val + j ∧
          0x080 + 6 * c'.val + j < 0x080 + 6 * c''.val + 6) := by
        intro c'' hc'' hr
        exact hl.1 ((Fin.ext (by omega) : c'' = c') ▸ hc'')
      rw [read_foldl_writeFrame_other (wf_writeFrame h pattern c') pattern hne, read_writeFrame h, if_pos (by omega),
        Nat.add_sub_cancel_left]
    · rw [ih (wf_writeFrame h pattern c') hl.2 ((List.mem_cons.mp hc).resolve_left (Ne.symm heq)),
        (OnlyMem.writeFrame pattern s c').balMask, (OnlyMem.writeFrame pattern s c').crcSeed]

end Sys2Proof.Machine
end

