-- ==== Sys2Proof/Laws/HostMap.lean ====
section
/-! SUPPORT. The host map's lemmas (20_memory.md rules R61, R62): an element is found at its address and nowhere else, and an
access is admitted exactly at an element's address and width. -/

namespace Sys2Proof.Machine

theorem chipWordBytes_eq : chipWordBytes = 16 := rfl

theorem chipCellBytes_eq : chipCellBytes = 30 := rfl

theorem cellRaw_end_eq : 0x200 + chipCellBytes * Config.maxChips = 0x2F0 := rfl

theorem chipWordAt_hit (base : Nat) (mk : Chip → Elem) (c : Chip) : chipWordAt base mk (base + 2 * c) = some (mk c) := by
  have hc := c.isLt
  simp only [Config.maxChips] at hc
  unfold chipWordAt
  rw [dif_pos (by rw [chipWordBytes_eq]; omega)]
  congr 2
  exact Fin.ext (by simp)

theorem chipWordAt_miss {base a : Nat} {mk : Chip → Elem} (h : a < base ∨ base + 16 ≤ a) : chipWordAt base mk a = none := by
  unfold chipWordAt
  rw [dif_neg (by rw [chipWordBytes_eq]; omega)]

theorem chipWordAt_some {base a : Nat} {mk : Chip → Elem} {e : Elem} (h : chipWordAt base mk a = some e) :
    ∃ c : Chip, e = mk c ∧ a = base + 2 * c := by
  unfold chipWordAt at h
  split at h
  · rename_i hc
    injection h with h
    exact ⟨_, h.symm, by simp; omega⟩
  · cases h

theorem cellRawAt_hit (c : Chip) (k : Slot) : cellRawAt (0x200 + 30 * c + 2 * k) = some (.store (.cellRaw c k)) := by
  have hc := c.isLt
  have hk := k.isLt
  simp only [Config.maxChips, Config.slots] at hc hk
  unfold cellRawAt
  rw [dif_pos (by rw [cellRaw_end_eq]; omega)]
  congr 3
  · exact Fin.ext (by simp only [chipCellBytes_eq]; omega)
  · exact Fin.ext (by simp only [chipCellBytes_eq]; omega)

theorem cellRawAt_miss {a : Nat} (h : a < 0x200 ∨ 0x2F0 ≤ a) : cellRawAt a = none := by
  unfold cellRawAt
  rw [dif_neg (by rw [cellRaw_end_eq]; omega)]

theorem cellRawAt_some {a : Nat} {e : Elem} (h : cellRawAt a = some e) :
    ∃ (c : Chip) (k : Slot), e = .store (.cellRaw c k) ∧ a = 0x200 + 30 * c + 2 * k := by
  unfold cellRawAt at h
  split at h
  · rename_i hc
    injection h with h
    exact ⟨_, _, h.symm, by simp only [chipCellBytes_eq]; omega⟩
  · cases h

theorem bufferAt_miss {a : Nat} (h : 0x0B0 ≤ a) : bufferAt a = none := by
  unfold bufferAt
  rw [dif_neg (by simp only [Config.rxSize]; omega), dif_neg (by simp only [bufBase, Config.txSize]; omega)]

theorem bufferAt_some {a : Nat} {e : Elem} (h : bufferAt a = some e) :
    (∃ i : Fin Config.rxSize, e = .rx i ∧ a = i) ∨ ∃ i : Fin Config.txSize, e = .tx i ∧ a = 0x080 + i := by
  unfold bufferAt at h
  split at h
  · injection h with h
    exact .inl ⟨_, h.symm, rfl⟩
  · split at h
    · rename_i hc
      injection h with h
      exact .inr ⟨_, h.symm, by simp only [bufBase] at hc ⊢; omega⟩
    · cases h

theorem controlAt_miss {a : Nat} (h : a < 0x100 ∨ 0x110 ≤ a) : controlAt a = none := by
  unfold controlAt
  repeat rw [if_neg (by omega)]

theorem controlAt_some {a : Nat} {e : Elem} (h : controlAt a = some e) :
    e.addr = a ∧ (∀ i, e ≠ .rx i) ∧ (∀ i, e ≠ .tx i) := by
  unfold controlAt at h
  repeat' split at h
  all_goals first
    | (cases h; done)
    | (injection h with h; subst h; subst_vars; exact ⟨rfl, by simp, by simp⟩)

/-- The element at an element's address is that element (R61: no two share an address). -/
theorem elemAt_addr (e : Elem) : elemAt e.addr = some e := by
  unfold elemAt
  cases e with
  | rx i =>
    have hi := i.isLt
    simp [Elem.addr, bufBase, bufferAt]
  | tx i =>
    have hi := i.isLt
    simp only [Config.txSize] at hi
    have h : bufferAt (0x080 + i) = some (.tx i) := by
      unfold bufferAt
      rw [dif_neg (by simp only [Config.rxSize]; omega), dif_pos (by simp only [bufBase, Config.txSize]; omega)]
      exact congrArg (fun j => some (Elem.tx j)) (Fin.ext (by simp [bufBase]))
    simp [Elem.addr, bufBase, h]
  | balMask c =>
    have hc := c.isLt
    simp only [Config.maxChips] at hc
    simp only [Elem.addr]
    rw [bufferAt_miss (by omega), controlAt_miss (by omega), chipWordAt_hit]
    rfl
  | store d =>
    cases d with
    | cellRaw c k =>
      have hc := c.isLt
      have hk := k.isLt
      simp only [Config.maxChips, Config.slots] at hc hk
      simp only [Elem.addr, Store.addr, chipCellBytes_eq]
      rw [bufferAt_miss (by omega), controlAt_miss (by omega), chipWordAt_miss (by omega), cellRawAt_hit]
      rfl
    | _ c =>
      have hc := c.isLt
      simp only [Config.maxChips] at hc
      simp only [Elem.addr, Store.addr]
      rw [bufferAt_miss (by omega), controlAt_miss (by omega), chipWordAt_miss (by omega), cellRawAt_miss (by omega)]
      repeat first
        | rw [chipWordAt_hit]
        | rw [chipWordAt_miss (by omega)]
      simp
  | _ => rfl

/-- An element found at an address has that address. -/
theorem addr_of_elemAt {a : Nat} {e : Elem} (h : elemAt a = some e) : e.addr = a := by
  unfold elemAt at h
  simp only [Option.orElse_eq_orElse, Option.orElse_eq_or, Option.or_eq_some_iff] at h
  rcases h with h | ⟨-, h⟩
  · rcases bufferAt_some h with ⟨i, rfl, rfl⟩ | ⟨i, rfl, rfl⟩ <;> simp [Elem.addr, bufBase]
  rcases h with h | ⟨-, h⟩
  · exact (controlAt_some h).1
  rcases h with h | ⟨-, h⟩
  · obtain ⟨c, rfl, rfl⟩ := chipWordAt_some h; rfl
  rcases h with h | ⟨-, h⟩
  · obtain ⟨c, k, rfl, rfl⟩ := cellRawAt_some h; rfl
  iterate 6
    rcases h with h | ⟨-, h⟩
    · obtain ⟨c, rfl, rfl⟩ := chipWordAt_some h; rfl
  obtain ⟨c, rfl, rfl⟩ := chipWordAt_some h; rfl

/-- Every element lies inside the 11-bit space, at a multiple of its width (R60, R62). -/
theorem Elem.addr_fits (e : Elem) : e.addr < 0x370 ∧ e.addr % e.width.bytes = 0 := by
  cases e with
  | rx i => have := i.isLt; simp only [Config.rxSize] at this; simp only [Elem.addr, bufBase, Elem.width, Width.bytes]; omega
  | tx i => have := i.isLt; simp only [Config.txSize] at this; simp only [Elem.addr, bufBase, Elem.width, Width.bytes]; omega
  | balMask c =>
    have := c.isLt; simp only [Config.maxChips] at this; simp only [Elem.addr, Elem.width, Width.bytes]; omega
  | store d =>
    cases d with
    | cellRaw c k =>
      have := c.isLt; have := k.isLt; simp only [Config.maxChips, Config.slots] at *
      simp only [Elem.addr, Store.addr, chipCellBytes_eq, Elem.width, Width.bytes]; omega
    | _ c =>
      have := c.isLt; simp only [Config.maxChips] at this
      simp only [Elem.addr, Store.addr, Elem.width, Width.bytes]; omega
  | _ => decide

theorem Elem.toNat_addr (e : Elem) : (BitVec.ofNat 11 e.addr : Addr).toNat = e.addr := by
  have := e.addr_fits.1
  simp only [BitVec.toNat_ofNat]
  omega

/-- An access at an element's address and width is admitted (R62). -/
theorem admitted_elem (e : Elem) : admitted e.width (BitVec.ofNat 11 e.addr) = some e := by
  simp [admitted, e.toNat_addr, elemAt_addr, Option.filter, e.addr_fits.2]

/-- Whatever is admitted is admitted at its own address and width (R62). -/
theorem admitted_some {n : Width} {a : Addr} {e : Elem} (h : admitted n a = some e) : e.addr = a.toNat ∧ e.width = n := by
  unfold admitted at h
  rw [Option.filter_eq_some_iff] at h
  simp only [Bool.and_eq_true, decide_eq_true_eq] at h
  exact ⟨addr_of_elemAt h.1, h.2.1⟩

/-- An access that no element's address and width allow is not admitted (R62). -/
theorem admitted_none {n : Width} {a : Addr} (h : ∀ e : Elem, ¬(e.addr = a.toNat ∧ e.width = n)) : admitted n a = none := by
  cases hc : admitted n a with
  | none => rfl
  | some e => exact absurd (admitted_some hc) (h e)

/-- The two outcomes of a host read (R63, R68). -/
theorem hostRead_cases (n : Width) (a : Addr) (s : State) :
    (∃ e, admitted n a = some e ∧ hostRead n a s = { s with readData := readElem s e }) ∨
      (admitted n a = none ∧ hostRead n a s = { s.raiseFault .access with readData := 0 }) := by
  unfold hostRead
  cases h : admitted n a with
  | some e => exact .inl ⟨e, rfl, rfl⟩
  | none => exact .inr ⟨rfl, rfl⟩

end Sys2Proof.Machine
end

