-- ==== Sys2Proof/Laws/PerInstr.lean ====
section
/-! SUPPORT. Statements about each instruction as syntax, one lemma for each constructor. -/

namespace Sys2Proof.Laws

/-- The mask and the pattern that 30_encoding.md rule R85 prints for the instruction. -/
def printedRow : Instr → Word × Word
  | .crc8 _ _ _ => (0xFFFF0080, 0x10000000)
  | .crc14 _ _ _ _ => (0xFFF80080, 0x20000000)
  | .decCva => (0xFFFFFFFF, 0x30000000)
  | .decCvb => (0xFFFFFFFF, 0x31000000)
  | .decCvc => (0xFFFFFFFF, 0x32000000)
  | .decCvd => (0xFFFFFFFF, 0x33000000)
  | .decCve => (0xFFFFFFFF, 0x34000000)
  | .decTv => (0xFFFFFFFF, 0x35000000)
  | .decAux => (0xFFFFFFFF, 0x36000000)
  | .decCfg => (0xFFFFFFFF, 0x37000000)
  | .decTemp => (0xFFFFFFFF, 0x38000000)
  | .encCfg => (0xFFFFFFFF, 0x40000000)

/-- The word of the instruction matches the instruction's row of R85, whatever its operands are. -/
def OnItsRow.Statement (i : Instr) : Prop := encode i &&& (printedRow i).1 = (printedRow i).2

theorem OnItsRow.crc8 (buf : Buf) (off len : Nat) : OnItsRow.Statement (.crc8 buf off len) := by
  cases buf <;> apply BitVec.eq_of_getLsbD_eq <;> intro j hj <;> interval_cases j <;>
    simp [encode, encodeBuf, encodeOff, encodeLen, printedRow]

theorem OnItsRow.crc14 (buf : Buf) (off len nbits : Nat) : OnItsRow.Statement (.crc14 buf off len nbits) := by
  cases buf <;> apply BitVec.eq_of_getLsbD_eq <;> intro j hj <;> interval_cases j <;>
    simp [encode, encodeBuf, encodeOff, encodeLen, encodeNbits, printedRow]

theorem OnItsRow.decCva : OnItsRow.Statement .decCva := rfl
theorem OnItsRow.decCvb : OnItsRow.Statement .decCvb := rfl
theorem OnItsRow.decCvc : OnItsRow.Statement .decCvc := rfl
theorem OnItsRow.decCvd : OnItsRow.Statement .decCvd := rfl
theorem OnItsRow.decCve : OnItsRow.Statement .decCve := rfl
theorem OnItsRow.decTv : OnItsRow.Statement .decTv := rfl
theorem OnItsRow.decAux : OnItsRow.Statement .decAux := rfl
theorem OnItsRow.decCfg : OnItsRow.Statement .decCfg := rfl
theorem OnItsRow.decTemp : OnItsRow.Statement .decTemp := rfl
theorem OnItsRow.encCfg : OnItsRow.Statement .encCfg := rfl

end Sys2Proof.Laws
end

