-- ==== Sys2Proof/Laws/Step.lean ====
section
/-! SUPPORT. What one step can do, said once: each outcome of a host access, and of the command a `CMD` write issues. -/

namespace Sys2Proof.Machine

/-- The words a decode command takes from each chip in state `s`; none for the other commands. -/
def decodeSamples (s : State) : Instr → Option (Chip → Samples)
  | .decCva => some (s.cellSamples groupA)
  | .decCvb => some (s.cellSamples groupB)
  | .decCvc => some (s.cellSamples groupC)
  | .decCvd => some (s.cellSamples groupD)
  | .decCve => some (s.cellSamples groupE)
  | .decTv => some s.tvSamples
  | .decAux => some s.auxSamples
  | .decCfg => some s.cfgSamples
  | .decTemp => some s.tempSamples
  | .crc8 _ _ _ => none
  | .crc14 _ _ _ _ => none
  | .encCfg => none

/-- The words of a decode command go each to a store element of its own, of the chip they came from. -/
theorem sorted_decodeSamples {i : Instr} {s : State} {samples : Chip → Samples}
    (h : decodeSamples s i = some samples) : Sorted samples := by
  have key : ∀ f, some f = some samples → Sorted f → Sorted samples := fun f he hf => Option.some.inj he ▸ hf
  cases i with
  | crc8 buf off len => cases h
  | crc14 buf off len nbits => cases h
  | encCfg => cases h
  | decTv => exact key _ h (sorted_tvSamples s)
  | decAux => exact key _ h (sorted_auxSamples s)
  | decCfg => exact key _ h (sorted_cfgSamples s)
  | decTemp => exact key _ h (sorted_tempSamples s)
  | _ => exact key _ h (sorted_cellSamples s _)

/-- A decode command's whole meaning is the shared loop over its words (R150). -/
theorem exec_of_decodeSamples {i : Instr} {s : State} {samples : Chip → Samples}
    (h : decodeSamples s i = some samples) : exec i s = .next (decodeLoop samples s) := by
  cases i <;> cases h <;> rfl

/-- What a command can do to the state it runs in: record a RANGE fault; write one of the two checksum results; decode
into the stores; or encode frames and invert the phase. -/
theorem exec_cases (i : Instr) (s : State) :
    (∃ buf off len, i = .crc8 buf off len ∧
      ((bufSize buf < off + len ∧ exec i s = .next (s.raiseFault .range)) ∨
        ∃ v, exec i s = .next { s with crc8Res := v })) ∨
    (∃ buf off len n, i = .crc14 buf off len n ∧
      ((bufSize buf < crc14Need off len n ∧ exec i s = .next (s.raiseFault .range)) ∨
        ∃ v : Crc, exec i s = .next { s with crc14Res := v.setWidth 16 })) ∨
    (∃ samples, decodeSamples s i = some samples ∧ exec i s = .next (decodeLoop samples s)) ∨
    (i = .encCfg ∧
      exec i s = .next (s.activeChips.foldl (writeFrame (phasePattern s.status.phase)) s).invertPhase) := by
  cases i with
  | crc8 buf off len =>
    refine .inl ⟨buf, off, len, rfl, ?_⟩
    simp only [exec, execCrc8]
    split
    · exact .inl ⟨‹_›, rfl⟩
    · exact .inr ⟨_, rfl⟩
  | crc14 buf off len nbits =>
    refine .inr (.inl ⟨buf, off, len, nbits, rfl, ?_⟩)
    simp only [exec, execCrc14]
    split
    · exact .inl ⟨‹_›, rfl⟩
    · exact .inr ⟨_, rfl⟩
  | encCfg => exact .inr (.inr (.inr ⟨rfl, rfl⟩))
  | _ => exact .inr (.inr (.inl ⟨_, rfl, rfl⟩))

/-- The outcomes of a write to `CMD` (R23, R92). -/
theorem writeCmd_cases (w : Word) (s : State) :
    (s.status.err = true ∧ writeCmd w s = .next s) ∨
    (s.status.err = false ∧ ∃ i, decode w = .ok i ∧ writeCmd w s = exec i { s with cmd := w }) ∨
    (s.status.err = false ∧ ∃ r, decode w = .error r ∧
      writeCmd w s = .next (({ s with cmd := w } : State).raiseFault .illegalCmd)) := by
  unfold writeCmd execute
  cases he : s.status.err with
  | true => simp
  | false =>
    cases hd : decode w with
    | ok i => simp
    | error r => simp

/-- The outcomes of a write to an element (R23, R28, R31, R64). -/
theorem writeElem_cases (v : Word) (s : State) (e : Elem) :
    (∃ i : Fin Config.rxSize, e = .rx i ∧ writeElem v s e = .next (s.rxWrite i (v.setWidth 8))) ∨
    (e = .cmd ∧ writeElem v s e = writeCmd v s) ∨
    (e = .chipCount ∧ writeElem v s e = .next (writeChipCount (v.setWidth 8) s)) ∨
    (e = .swap5v ∧ writeElem v s e = .next { s with swap5v := v.setWidth 8 }) ∨
    (e = .crc14Init ∧ writeElem v s e = .next { s with crc14Init := v.setWidth 16 &&& Config.crc14Mask }) ∨
    (∃ c, e = .balMask c ∧ writeElem v s e = .next { s with balMask := s.balMask.set c (v.setWidth 16) }) ∨
    writeElem v s e = .next (s.raiseFault .access) := by
  cases e <;> simp [writeElem]

/-- The outcomes of a host write: the element's own, or an access that is not admitted (R63). -/
theorem hostWrite_cases (n : Width) (a : Addr) (v : Word) (s : State) :
    (∃ e, admitted n a = some e ∧ hostWrite n a v s = writeElem v s e) ∨
      (admitted n a = none ∧ hostWrite n a v s = .next (s.raiseFault .access)) := by
  unfold hostWrite
  cases h : admitted n a with
  | some e => exact .inl ⟨e, rfl, rfl⟩
  | none => exact .inr ⟨rfl, rfl⟩

/-- A write at an element's own address and width is a write to that element. -/
theorem hostWrite_elem (e : Elem) (v : Word) (s : State) :
    hostWrite e.width (BitVec.ofNat 11 e.addr) v s = writeElem v s e := by
  rw [hostWrite, admitted_elem]

/-- A step with nothing pending changes nothing. -/
theorem step_of_nil {s : State} (h : s.pending = []) : step s = .next s := by
  simp [step, hostStep, h]

/-- A step takes the oldest pending access and performs it. -/
theorem step_of_cons {s : State} {op : HostOp} {rest : List HostOp} (h : s.pending = op :: rest) :
    step s = perform op { s with pending := rest } := by
  simp [step, hostStep, h]

/-- A 32-bit write to the address of `CMD` is a write to `CMD`. -/
theorem hostWrite_cmd (w : Word) (s : State) : hostWrite .w32 cmdAddr w s = writeCmd w s := rfl

/-- The step that delivers a command (R23). -/
theorem step_issue (s : State) (w : Word) : step (s.issue w) = writeCmd w s := by
  rw [step_of_cons (s.issue_pending w)]
  rfl

/-- Everything an access can do to the state it is performed in, for each item of the host's list. -/
theorem perform_cases (op : HostOp) (s : State) :
    (∃ n a, perform op s = .next (hostRead n a s)) ∨
    (op = .reset ∧ perform op s = .next s.resetInput) ∨
    (∃ n a v, op ≠ .reset ∧ perform op s = hostWrite n a v s) := by
  cases op with
  | rd8 a => exact .inl ⟨.w8, a, rfl⟩
  | rd16 a => exact .inl ⟨.w16, a, rfl⟩
  | rd32 a => exact .inl ⟨.w32, a, rfl⟩
  | wr8 a v => exact .inr (.inr ⟨.w8, a, _, by simp, rfl⟩)
  | wr16 a v => exact .inr (.inr ⟨.w16, a, _, by simp, rfl⟩)
  | wr32 a v => exact .inr (.inr ⟨.w32, a, v, by simp, rfl⟩)
  | reset => exact .inr (.inl ⟨rfl, rfl⟩)

/-- The host reads, as one form. -/
def IsRead (op : HostOp) (n : Width) (a : Addr) : Prop :=
  (op = .rd8 a ∧ n = .w8) ∨ (op = .rd16 a ∧ n = .w16) ∨ (op = .rd32 a ∧ n = .w32)

/-- What a host write other than a write to `CMD` can leave (R28, R31, R63, R64). -/
def PlainWrite (s t : State) : Prop :=
  (∃ (i : Fin Config.rxSize) (v : Byte), t = s.rxWrite i v) ∨ (∃ v : Byte, t = writeChipCount v s) ∨
  (∃ v : Byte, t = { s with swap5v := v }) ∨ (∃ v : Half, t = { s with crc14Init := v &&& Config.crc14Mask }) ∨
  (∃ (c : Chip) (v : Half), t = { s with balMask := s.balMask.set c v }) ∨ t = s.raiseFault .access

/-- A host write that is no command touches `STATUS` by one of two faults only. -/
theorem PlainWrite.status {s t : State} (h : PlainWrite s t) :
    t.status = s.status ∨ t = s.raiseFault .access ∨ t = s.raiseFault .chipCountValue := by
  rcases h with ⟨i, v, rfl⟩ | ⟨v, rfl⟩ | ⟨v, rfl⟩ | ⟨v, rfl⟩ | ⟨c, v, rfl⟩ | rfl
  · exact .inl rfl
  · unfold writeChipCount
    split
    · exact .inr (.inr rfl)
    · exact .inl rfl
  · exact .inl rfl
  · exact .inl rfl
  · exact .inl rfl
  · exact .inr (.inl rfl)

theorem admitted_cmd {n : Width} {a : Addr} (h : admitted n a = some .cmd) : n = .w32 ∧ a = cmdAddr := by
  have h' := admitted_some h
  simp only [Elem.addr, Elem.width] at h'
  exact ⟨h'.2.symm, BitVec.eq_of_toNat_eq h'.1.symm⟩

theorem hostWrite_plain {n : Width} {a : Addr} {v : Word} {s t : State} (hne : ¬(n = .w32 ∧ a = cmdAddr))
    (h : hostWrite n a v s = .next t) : PlainWrite s t := by
  rcases hostWrite_cases n a v s with ⟨e, ha, he⟩ | ⟨-, he⟩
  · rw [he] at h
    rcases writeElem_cases v s e with ⟨i, -, h'⟩ | ⟨hc, -⟩ | ⟨-, h'⟩ | ⟨-, h'⟩ | ⟨-, h'⟩ | ⟨c, -, h'⟩ | h'
    · rw [h'] at h; injection h with h; exact .inl ⟨i, _, h.symm⟩
    · exact absurd (admitted_cmd (hc ▸ ha)) hne
    · rw [h'] at h; injection h with h; exact .inr (.inl ⟨_, h.symm⟩)
    · rw [h'] at h; injection h with h; exact .inr (.inr (.inl ⟨_, h.symm⟩))
    · rw [h'] at h; injection h with h; exact .inr (.inr (.inr (.inl ⟨_, h.symm⟩)))
    · rw [h'] at h; injection h with h; exact .inr (.inr (.inr (.inr (.inl ⟨c, _, h.symm⟩))))
    · rw [h'] at h; injection h with h; exact .inr (.inr (.inr (.inr (.inr h.symm))))
  · rw [he] at h; injection h with h; exact .inr (.inr (.inr (.inr (.inr h.symm))))

/-- Everything a step can do: hold the state; read; assert reset; issue a command; or write another element. -/
theorem step_cases {s t : State} (h : step s = .next t) :
    (s.pending = [] ∧ t = s) ∨
    ∃ op rest, s.pending = op :: rest ∧
      ((∃ n a, IsRead op n a ∧ t = hostRead n a { s with pending := rest }) ∨
        (op = .reset ∧ t = ({ s with pending := rest } : State).resetInput) ∨
        (∃ w, op = .wr32 cmdAddr w ∧ writeCmd w { s with pending := rest } = .next t) ∨
        ((∀ w, op ≠ .wr32 cmdAddr w) ∧ (∀ n a, ¬IsRead op n a) ∧ op ≠ .reset ∧
          PlainWrite { s with pending := rest } t)) := by
  cases hp : s.pending with
  | nil => rw [step_of_nil hp] at h; injection h with h; exact .inl ⟨rfl, h.symm⟩
  | cons op rest =>
    rw [step_of_cons hp] at h
    refine .inr ⟨op, rest, rfl, ?_⟩
    cases op with
    | rd8 a => injection h with h; exact .inl ⟨.w8, a, .inl ⟨rfl, rfl⟩, h.symm⟩
    | rd16 a => injection h with h; exact .inl ⟨.w16, a, .inr (.inl ⟨rfl, rfl⟩), h.symm⟩
    | rd32 a => injection h with h; exact .inl ⟨.w32, a, .inr (.inr ⟨rfl, rfl⟩), h.symm⟩
    | wr8 a v => exact .inr (.inr (.inr ⟨by simp, by simp [IsRead], by simp, hostWrite_plain (by simp) h⟩))
    | wr16 a v => exact .inr (.inr (.inr ⟨by simp, by simp [IsRead], by simp, hostWrite_plain (by simp) h⟩))
    | wr32 a v =>
      by_cases ha : a = cmdAddr
      · subst ha
        exact .inr (.inr (.inl ⟨v, rfl, h⟩))
      · exact .inr (.inr (.inr ⟨by simp [ha], by simp [IsRead], by simp, hostWrite_plain (by simp [ha]) h⟩))
    | reset => injection h with h; exact .inr (.inl ⟨rfl, h.symm⟩)

end Sys2Proof.Machine
end

