-- ==== Sys2Proof/Tests/Slice0.lean ====
section
/-! SUPPORT. The model's own tests. Expected values are those of 95_test_vectors.md (L1, L2) and of the examples in the
commands' rules, or are worked by hand from the rule a test names. The `witness_…` theorems show, for each statement
that has hypotheses, a concrete state and operands that meet them. -/

namespace Sys2Proof.Tests

open Sys2Proof.Machine

/-! ### Helpers -/

/-- The next state, if the outcome is one. -/
def nextOf : Host.Outcome State Fault Refusal → Option State
  | .next s => some s
  | .fault _ => none
  | .refused _ => none

/-- Reset, but for `CHIPCOUNT` and some buffer bytes at their host addresses. -/
def withBytes (chips : Byte) (cells : List Host.Cell) : State :=
  { State.reset with chipCount := chips, mem := ⟨cells⟩ }

/-- Reset, with the host about to do `op`. -/
def about (op : HostOp) : State := { State.reset with pending := [op] }

/-- The same with a RANGE fault recorded. -/
def aboutFaulted (op : HostOp) : State := { about op with status := ⟨true, .range, .even⟩ }

/-- Reset with one chip and a balance mask. -/
def encState (chips : Byte) (bal : Half) : State :=
  { State.reset with chipCount := chips, balMask := State.reset.balMask.set 0 bal }

/-! ### WellFormed refuses each ill-formed operand -/

theorem test_off_beyond_its_field_is_ill_formed : (Instr.crc8 .rx 128 0).wellFormed = false := by decide
theorem test_len_beyond_its_field_is_ill_formed : (Instr.crc8 .tx 0 128).wellFormed = false := by decide
theorem test_crc14_off_beyond_its_field_is_ill_formed : (Instr.crc14 .rx 128 0 0).wellFormed = false := by decide
theorem test_crc14_len_beyond_its_field_is_ill_formed : (Instr.crc14 .rx 0 128 0).wellFormed = false := by decide
theorem test_nbits_beyond_its_field_is_ill_formed : (Instr.crc14 .rx 0 0 8).wellFormed = false := by decide

/-! ### Decoding: every constructor, from words written out from 30_encoding.md R81 and R85 -/

/-- OP 0001, BUF 0, OFF 0000011, LEN 0000010. -/
theorem test_decode_crc8_rx : decode 0b0001_0000_0000_0000_0_0000011_0_0000010 = .ok (.crc8 .rx 3 2) := by decide
/-- OP 0001, BUF 1, OFF 0000000, LEN 0110000. -/
theorem test_decode_crc8_tx : decode 0b0001_0000_0000_0000_1_0000000_0_0110000 = .ok (.crc8 .tx 0 48) := by decide
/-- OP 0010, NBITS 011, BUF 0, OFF 0000000, LEN 0000001. -/
theorem test_decode_crc14_rx : decode 0b0010_0000_00000_011_0_0000000_0_0000001 = .ok (.crc14 .rx 0 1 3) := by decide
/-- OP 0010, NBITS 111, BUF 1, OFF 0101111, LEN 0000000. -/
theorem test_decode_crc14_tx : decode 0b0010_0000_00000_111_1_0101111_0_0000000 = .ok (.crc14 .tx 47 0 7) := by decide
theorem test_decode_cva : decode 0b0011_0000_000000000000000000000000 = .ok .decCva := by decide
theorem test_decode_cvb : decode 0b0011_0001_000000000000000000000000 = .ok .decCvb := by decide
theorem test_decode_cvc : decode 0b0011_0010_000000000000000000000000 = .ok .decCvc := by decide
theorem test_decode_cvd : decode 0b0011_0011_000000000000000000000000 = .ok .decCvd := by decide
theorem test_decode_cve : decode 0b0011_0100_000000000000000000000000 = .ok .decCve := by decide
theorem test_decode_tv : decode 0b0011_0101_000000000000000000000000 = .ok .decTv := by decide
theorem test_decode_aux : decode 0b0011_0110_000000000000000000000000 = .ok .decAux := by decide
theorem test_decode_cfg : decode 0b0011_0111_000000000000000000000000 = .ok .decCfg := by decide
theorem test_decode_temp : decode 0b0011_1000_000000000000000000000000 = .ok .decTemp := by decide
theorem test_decode_enc_cfg : decode 0b0100_0000_000000000000000000000000 = .ok .encCfg := by decide
/-- Why a word is no command: reserved OP, reserved SUB, a fixed-zero bit. -/
theorem test_decode_reserved_op : decode 0x50000000 = .error (.reservedOp 5) := by decide
theorem test_decode_reserved_sub : decode 0x39000000 = .error (.reservedSub 9) := by decide
theorem test_decode_crc8_bit7 : decode 0x10000080 = .error .fixedZeroBit := by decide
theorem test_decode_crc14_bit19 : decode 0x20080000 = .error .fixedZeroBit := by decide
theorem test_encode_crc14 : encode (.crc14 .tx 47 1 1) = 0x2001AF01 := by decide
/-- The first step after `withFetchWord` runs the word's command. -/
theorem test_fetch_word_runs :
    step (State.reset.withFetchWord 32 0x40000000) = exec .encCfg { State.reset with cmd := 0x40000000 } := rfl

/-! ### CRC8 and CRC14 -/

/-- `crc8 rx, 0, 2` over 01 02 is `T8[T8[0x11] ^ 0x02]`. -/
theorem test_crc8_two_bytes :
    (nextOf (exec (.crc8 .rx 0 2) (withBytes 0 [(0, 1), (1, 2)]))).map (·.crc8Res)
      = some (Config.t8 (Config.t8 0x11 ^^^ 0x02)) := rfl
theorem test_crc8_past_the_end :
    (nextOf (exec (.crc8 .tx 48 1) State.reset)).map (fun s => (s.status.word, s.crc8Res)) = some (0x21, 0) := by decide
theorem test_crc14_residual_bits :
    (nextOf (exec (.crc14 .rx 0 1 3) (withBytes 0 [(0, 0xF3), (1, 0xA0)]))).map (·.crc14Res) = some 0x2A3A := by decide
theorem test_crc14_seeded_at_the_end :
    (nextOf (exec (.crc14 .rx 74 0 1) { State.reset with crc14Init := 0x2000 })).map (·.crc14Res) = some 0x025B := by
  decide
theorem test_crc14_longest_input : crc14 0x0010 (List.replicate 75 0xFF) 0 0 = 0x0803 := by decide +kernel
theorem test_crc14_seven_residual_bits : crc14 0 [0xF3] 7 0xFE = 0x21AC := by decide +kernel

/-! ### DEC.* -/

theorem test_dec_cva :
    (nextOf (exec .decCva (withBytes 1 [(1, 0xE2), (2, 0x04)]))).map
      (fun s => (s.cellRaw[(0 : Chip)][(0 : Slot)], s.cellRaw[(0 : Chip)][(1 : Slot)], s.validMap))
      = some (1250, 0, 0x01) := by decide
theorem test_cell_mv :
    ({ State.reset with
        cellRaw := State.reset.cellRaw.set 0 (State.reset.cellRaw[0].set 0 1250) } : State).cellMv 0 0 = 100 := by
  decide +kernel
theorem test_dec_cvb :
    (nextOf (exec .decCvb (withBytes 2
      [(1, 0x80), (2, 0x0C), (3, 0x81), (4, 0x0C), (5, 0xFF), (6, 0xFF), (10, 0xFF), (11, 0xFF), (12, 0xFF), (13, 0xFF),
        (14, 0xFF), (15, 0xFF)]))).map
      (fun s => (s.cellRaw[(0 : Chip)][(3 : Slot)], s.cellRaw[(0 : Chip)][(4 : Slot)], s.cellRaw[(0 : Chip)][(5 : Slot)],
        s.validMap)) = some (3200, 3201, 0, 0x01) := by decide
theorem test_dec_cvc :
    (nextOf (exec .decCvc (withBytes 1 [(3, 0xFF), (4, 0xFF), (5, 0x01)]))).map
      (fun s => (s.cellRaw[(0 : Chip)][(7 : Slot)], s.cellRaw[(0 : Chip)][(8 : Slot)])) = some (0, 1) := by decide
theorem test_dec_cvd :
    (nextOf (exec .decCvd (withBytes 8 [(64, 0xFE), (65, 0xFF), (66, 0xFF), (67, 0xFF), (69, 0x80)]))).map
      (fun s => (s.cellRaw[(7 : Chip)][(9 : Slot)], s.cellRaw[(7 : Chip)][(11 : Slot)], s.validMap))
      = some (0xFFFE, 0x8000, 0xFF) := by decide
theorem test_dec_cve :
    (nextOf (exec .decCve (withBytes 1 [(1, 0x10), (2, 0x27), (3, 0x11), (4, 0x27), (5, 0x12), (6, 0x27)]))).map
      (fun s => (s.cellRaw[(0 : Chip)][(12 : Slot)], s.cellRaw[(0 : Chip)][(14 : Slot)])) = some (10000, 10002) := by
  decide
theorem test_dec_tv :
    (nextOf (exec .decTv (withBytes 8 [(50, 0x34), (51, 0x12), (52, 0x99), (53, 0x99)]))).map
      (fun s => (s.tvRaw[(7 : Chip)], s.validMap)) = some (0x1234, 0xFF) := by decide
theorem test_dec_aux :
    (nextOf (exec .decAux (withBytes 2
      [(2, 0x04), (3, 0x13), (4, 0x88), (6, 0x05), (10, 0x01), (11, 0x04), (12, 0x88), (13, 0x13), (14, 0x01),
        (15, 0x05)]))).map
      (fun s => (s.auxT1[(1 : Chip)], s.aux5v[(0 : Chip)], s.aux5v[(1 : Chip)], s.auxT2[(0 : Chip)]))
      = some (0x0401, 0x1388, 0x1388, 0x0500) := by decide
theorem test_dec_aux_without_reversal :
    (nextOf (exec .decAux { withBytes 1 [(2, 0x04), (3, 0x13), (4, 0x88), (6, 0x05)] with swap5v := 0 })).map
      (·.aux5v[(0 : Chip)]) = some 0x8813 := by decide
theorem test_dec_cfg :
    (nextOf (exec .decCfg (withBytes 8 [(50, 1), (51, 2), (52, 3), (53, 4)]))).map
      (fun s => (s.cfgW0[(7 : Chip)], s.cfgW1[(7 : Chip)])) = some (0x0201, 0x0403) := by decide
theorem test_dec_temp :
    (nextOf (exec .decTemp (withBytes 2 [(2, 0x34), (3, 0x12), (10, 0xFF), (11, 0xFF)]))).map
      (fun s => (s.tempRaw[(0 : Chip)], s.tempRaw[(1 : Chip)], s.validMap)) = some (0x1234, 0, 0x01) := by decide
/-- With `CHIPCOUNT = 0` a decode clears `VALIDMAP`. -/
theorem test_dec_without_chips :
    (nextOf (exec .decTemp { State.reset with validMap := 0x05 })).map (·.validMap) = some 0 := by decide

/-! ### ENC.CFG -/

theorem test_enc_cfg_even :
    (nextOf (exec .encCfg (encState 1 0x7FFF))).map (fun s => (s.bufBytes .tx 0 6, s.status.word))
      = some ([0xF3, 0x00, 0xAA, 0x2A, 0x06, 0x28], 0x100) := by decide
theorem test_enc_cfg_odd_seeded :
    (nextOf (exec .encCfg { encState 1 0x1234 with status := ⟨false, .none, .odd⟩, crc14Init := 0x0010 })).map
      (fun s => (s.bufBytes .tx 0 6, s.status.word)) = some ([0xF3, 0x00, 0x14, 0x10, 0x0D, 0x39], 0) := by decide

/-! ### Host accesses, from the table of 95_test_vectors.md -/

theorem test_read_reset_swap5v : (nextOf (step (about (.rd8 0x109)))).map (·.readData) = some 0xA9 := by decide
theorem test_read_last_cell :
    (nextOf (step (about (.rd16 0x2EE)))).map (fun s => (s.readData, s.status.word)) = some (0, 0) := by decide
theorem test_read_reserved :
    (nextOf (step (about (.rd16 0x2F0)))).map (fun s => (s.readData, s.status.word)) = some (0, 0x31) := by decide
theorem test_write_crc14_init :
    (nextOf (step (about (.wr16 0x10E 0xFFFF)))).map (fun s => (s.crc14Init, s.status.word)) = some (0x3FFF, 0) := by
  decide
theorem test_write_chip_count_nine :
    (nextOf (step (about (.wr8 0x108 9)))).map (fun s => (s.chipCount, s.status.word)) = some (0, 0x41) := by decide
theorem test_write_tx :
    (nextOf (step (about (.wr8 0x080 0x12)))).map (fun s => (s.mem, s.status.word)) = some (⟨[]⟩, 0x31) := by decide
theorem test_write_rx : (nextOf (step (about (.wr8 0x04A 0x12)))).map (·.mem) = some ⟨[(0x04A, 0x12)]⟩ := by decide
theorem test_illegal_command :
    (nextOf (step (about (.wr32 0x100 0x50000000)))).map (fun s => (s.cmd, s.status.word))
      = some (0x50000000, 0x11) := by decide
theorem test_command_ignored_while_err :
    (nextOf (step (aboutFaulted (.wr32 0x100 0x40000000)))).map (fun s => (s.cmd, s.status.word)) = some (0, 0x21) := by
  decide
theorem test_reset_clears_err : (nextOf (step (aboutFaulted .reset))).map (·.status.word) = some 0 := by decide
theorem test_assembled_crc14 :
    assemble (.crc14Short .tx 6 4) = some (.wr32 0x100 0x20008604) := by decide
/-- R89 does not bound `C`: the line is expanded as printed, and the CCU answers with an ACCESS fault (log 18). -/
theorem test_assembled_setbal_past_the_chips :
    assemble (.setbal 7 1) = some (.wr16 0x11E 1) ∧ assemble (.setbal 8 1) = some (.wr16 0x120 1) ∧
      (nextOf (step (about (.wr16 0x120 1)))).map (·.status.word) = some 0x31 ∧ assemble (.setbal 888 1) = none := by
  decide
theorem test_assembled_setcc_too_wide : assemble (.setcc 256) = none := by decide

/-! ### Witnesses: encoding -/

theorem witness_EveryWellFormedInstrDecodesFromItsWord :
    (Instr.crc8 .rx 0 0).wellFormed = true ∧ (Instr.crc14 .tx 127 127 7).wellFormed = true ∧
      Instr.encCfg.wellFormed = true := by decide
theorem witness_EveryDecodedWordIsItsInstrsWord : decode 0x2007FF7F = .ok (.crc14 .tx 127 127 7) := by decide
/-- Both sides of each equivalence occur: a word on its row, and words on no row. -/
theorem witness_WordIsACommandExactlyOnItsRow :
    (0x1000FF7F : Word) &&& 0xFFFF0080 = 0x10000000 ∧ (0x2007FF7F : Word) &&& 0xFFF80080 = 0x20000000 ∧
      decode 0x1000FF7F = .ok (.crc8 .tx 127 127) ∧ decode 0x40000000 = .ok .encCfg ∧
      decode 0x40000001 = .error .fixedZeroBit := by decide
/-- A pending write of a word on no row. -/
theorem witness_ReservedWordsRaiseIllegalCmd :
    (about (.wr32 0x100 0)).pending = [.wr32 0x100 0] ∧ (about (.wr32 0x100 0)).status.err = false ∧
      matchesNoRow 0 :=
  ⟨rfl, rfl, by simp [matchesNoRow, printedRows]⟩
/-- A word of each reserved kind, with the fields that make it one. -/
theorem witness_ReservedWordsRaiseIllegalCmd_fields :
    opOf 0 = 0 ∧ opOf 0x50000000 = 5 ∧ opOf 0xFFFFFFFF = 15 ∧ opOf 0x39000000 = 3 ∧ subOf 0x39000000 = 9 ∧
      opOf 0x3F000000 = 3 ∧ subOf 0x3F000000 = 15 :=
  ⟨rfl, rfl, rfl, rfl, rfl, rfl, rfl⟩
theorem witness_ReservedWordsRaiseIllegalCmd_fixed_bits :
    (opOf 0x10000080 = 1 ∧ (0x10000080 : Word) &&& 0x0FFF0080 ≠ 0) ∧
      (opOf 0x10010000 = 1 ∧ (0x10010000 : Word) &&& 0x0FFF0080 ≠ 0) ∧
      (opOf 0x20080000 = 2 ∧ (0x20080000 : Word) &&& 0x0FF80080 ≠ 0) ∧
      (opOf 0x30000001 = 3 ∧ (0x30000001 : Word) &&& 0x00FFFFFF ≠ 0) ∧
      (opOf 0x41000000 = 4 ∧ (0x41000000 : Word) &&& 0x0FFFFFFF ≠ 0) := by decide

/-! ### Witnesses: steps -/

theorem witness_StepRunsTheDecodedCommand :
    (about (.wr32 0x100 0x36000000)).pending = [.wr32 0x100 0x36000000] ∧
      (about (.wr32 0x100 0x36000000)).status.err = false ∧ decode 0x36000000 = .ok .decAux := by decide
/-- One state for the clause of `CMD`, one for the clause of the other accesses, with its next state. -/
theorem witness_OnlyCmdWritesAreBlockedWhileErr :
    (aboutFaulted (.wr32 0x100 0)).status.err = true ∧ (aboutFaulted (.wr32 0x100 0)).pending = [.wr32 0x100 0] ∧
      (aboutFaulted (.wr8 0x108 3)).status.err = true ∧ (aboutFaulted (.wr8 0x108 3)).pending = [.wr8 0x108 3] ∧
      HostOp.wr8 0x108 3 ≠ .reset ∧ HostOp.wr8 0x108 3 ≠ .rd32 0x104 ∧
      (nextOf (step { aboutFaulted (.wr8 0x108 3) with status := ⟨false, .none, .even⟩ })).isSome = true := by decide
theorem witness_StepHoldsTheStateWhenNothingIsPending : State.reset.pending = [] := rfl
theorem witness_ResetInputRestoresEveryElement : (aboutFaulted .reset).pending = [.reset] := rfl

/-! ### Witnesses: host accesses -/

/-- A read of the first and the last byte of `RX`, the last of `TX`, and the last store element. -/
theorem witness_AdmittedReadReturnsTheElement :
    (about (.rd8 0x000)).pending = [readOp (Elem.rx 0).width (BitVec.ofNat 11 (Elem.rx 0).addr)] ∧
      (about (.rd8 0x04A)).pending = [readOp (Elem.rx 74).width (BitVec.ofNat 11 (Elem.rx 74).addr)] ∧
      (about (.rd8 0x0AF)).pending = [readOp (Elem.tx 47).width (BitVec.ofNat 11 (Elem.tx 47).addr)] ∧
      (about (.rd16 0x36E)).pending
        = [readOp (Elem.store (.tempRaw 7)).width (BitVec.ofNat 11 (Elem.store (.tempRaw 7)).addr)] := by decide

/-- An access that is not admitted starts no element of its width. -/
theorem no_element {n : Width} {a : Addr} (h : admitted n a = none) (e : Elem) : ¬(e.addr = a.toNat ∧ e.width = n) := by
  rintro ⟨ha, rfl⟩
  have hc := admitted_elem e
  rw [ha, BitVec.ofNat_toNat, BitVec.setWidth_eq, h] at hc
  cases hc

/-- The first byte past `RX`, a wrong width at `CMD`, a misaligned access and the last address, read and written. -/
theorem witness_AccessNotAdmittedRaisesAccess :
    (∀ e : Elem, ¬(e.addr = (0x04B : Addr).toNat ∧ e.width = .w8)) ∧
      (∀ e : Elem, ¬(e.addr = (0x100 : Addr).toNat ∧ e.width = .w8)) ∧
      (∀ e : Elem, ¬(e.addr = (0x10D : Addr).toNat ∧ e.width = .w16)) ∧
      (∀ e : Elem, ¬(e.addr = (0x7FF : Addr).toNat ∧ e.width = .w8)) ∧
      (about (.rd8 0x04B)).pending = [readOp .w8 0x04B] ∧ (about (.wr8 0x04B 1)).pending = [writeOp .w8 0x04B 1] :=
  ⟨no_element (by decide), no_element (by decide), no_element (by decide), no_element (by decide), rfl, rfl⟩
/-- A read-only element of each kind, with the write pending. -/
theorem witness_WriteToReadOnlyElementRaisesAccess :
    hostReadOnly (.tx 47) ∧ hostReadOnly .status ∧ hostReadOnly .validMap ∧ hostReadOnly .crc8Res ∧
      hostReadOnly .crc14Res ∧ hostReadOnly (.store (.cellRaw 7 14)) ∧
      (about (.wr16 0x2EE 1)).pending
        = [writeOp (Elem.store (.cellRaw 7 14)).width (BitVec.ofNat 11 (Elem.store (.cellRaw 7 14)).addr) 1] := by
  simp [hostReadOnly]
  decide
theorem witness_ChipCountWriteStoresOrFaults :
    (about (.wr8 0x108 8)).pending = [.wr8 0x108 8] ∧ (8 : Byte).toNat ≤ 8 ∧
      (about (.wr8 0x108 9)).pending = [.wr8 0x108 9] ∧ 8 < (9 : Byte).toNat := by decide
theorem witness_ConfigRegisterWritesStoreTheValue :
    (about (.wr8 0x109 0)).pending = [.wr8 0x109 0] ∧ (about (.wr16 0x10E 0xFFFF)).pending = [.wr16 0x10E 0xFFFF] ∧
      (about (.wr16 0x110 1)).pending = [.wr16 (BitVec.ofNat 11 (0x110 + 2 * (0 : Chip).val)) 1] ∧
      (about (.wr16 0x11E 1)).pending = [.wr16 (BitVec.ofNat 11 (0x110 + 2 * (7 : Chip).val)) 1] := by decide
theorem witness_RxWriteStoresOneByte :
    (about (.wr8 0x000 1)).mem.wf = true ∧ (about (.wr8 0x000 1)).pending = [.wr8 (BitVec.ofNat 11 0) 1] ∧
      (about (.wr8 0x04A 1)).mem.wf = true ∧ 74 < 75 ∧
      (about (.wr8 0x04A 1)).pending = [.wr8 (BitVec.ofNat 11 74) 1] := by decide
/-- A write of each kind that R68 names. -/
theorem witness_RegisterWritesAreIdempotent :
    idempotentWrite (.wr8 (BitVec.ofNat 11 74) 0) ∧ idempotentWrite (.wr8 0x108 8) ∧ idempotentWrite (.wr8 0x109 0) ∧
      idempotentWrite (.wr16 0x10E 0xFFFF) ∧ idempotentWrite (.wr16 (BitVec.ofNat 11 (0x110 + 2 * (7 : Chip).val)) 1) ∧
      State.reset.mem.wf = true ∧
      ({ State.reset with pending := [.wr8 0x108 8, .wr8 0x108 8] } : State).pending
        = [.wr8 0x108 8, .wr8 0x108 8] :=
  ⟨.inl ⟨74, 0, by decide, rfl⟩, .inr (.inl ⟨8, by decide, rfl⟩), .inr (.inr (.inl ⟨0, rfl⟩)),
    .inr (.inr (.inr (.inl ⟨0xFFFF, rfl⟩))), .inr (.inr (.inr (.inr ⟨7, 1, rfl⟩))), rfl, rfl⟩

/-! ### Witnesses: status and faults -/

theorem witness_ErrSticksUntilReset :
    State.reset.status.err = false ∧ (nextOf (step (aboutFaulted (.wr8 0x108 9)))).isSome = true ∧
      (aboutFaulted (.wr8 0x108 9)).status.err = true ∧ (aboutFaulted .reset).pending = [.reset] := by decide
/-- A fault of each cause, each with the access that raises it. -/
theorem witness_RecordedFaultLeavesEverythingElse :
    (about (.wr8 0x108 9)).status.err = false ∧
      (nextOf (step (about (.wr8 0x108 9)))).map (·.status.err) = some true ∧
      (nextOf (step (about (.rd8 0x04B)))).map (·.status.err) = some true ∧
      (nextOf (step (about (.wr32 0x100 0)))).map (·.status.err) = some true ∧
      (nextOf (step (about (.wr32 0x100 0x10004B01)))).map (·.status.err) = some true ∧
      HostOp.rd8 0x04B = readOp .w8 0x04B := by decide
theorem witness_CommandsFaultOnlyOnRange :
    State.reset.status.err = false ∧
      (nextOf (exec (.crc8 .rx 75 1) State.reset)).map (·.status.err) = some true ∧
      (nextOf (exec (.crc14 .tx 48 0 1) State.reset)).map (·.status.err) = some true := by decide

/-! ### Witnesses: checksums, at the ends of the buffers -/

theorem witness_Crc8CommandWritesItsResult :
    74 + 1 ≤ printedSize .rx ∧ printedSize .rx < 75 + 1 ∧ 0 + 48 ≤ printedSize .tx ∧
      printedSize .tx < 0 + 49 := by decide
theorem witness_Crc14RunsBytePhaseThenBitPhase : 0 < 7 ∧ 6 < 7 := by decide
theorem witness_Crc14CommandWritesItsResult :
    74 + 0 + (if 0 < 1 then 1 else 0) ≤ printedSize .rx ∧ printedSize .rx < 74 + 1 + (if 0 < 1 then 1 else 0) ∧
      74 + 1 + (if 0 < 0 then 1 else 0) ≤ printedSize .rx ∧
      47 + 0 + (if 0 < 7 then 1 else 0) ≤ printedSize .tx ∧
      printedSize .tx < 48 + 0 + (if 0 < 7 then 1 else 0) := by decide
theorem witness_Crc14CommandsChainThroughTheSeed :
    0 + 40 + 34 + (if 0 < 3 then 1 else 0) ≤ printedSize .rx := by decide
/-- For CRC8, two states that differ in `RX[3]` and in the seed, and a range that leaves the byte out. -/
theorem witness_ChecksumDependsOnItsRangeOnly_crc8 :
    0 + 3 ≤ printedSize .rx ∧
      ({ withBytes 0 [(3, 1)] with crc14Init := 1 } : State).crc14Init ≠ (withBytes 0 []).crc14Init ∧
      ∀ i < 3, ({ withBytes 0 [(3, 1)] with crc14Init := 1 } : State).bufByte .rx i = (withBytes 0 []).bufByte .rx i := by
  decide
/-- For CRC14, two states that differ in `RX[3]` only, and a range that leaves it out. -/
theorem witness_ChecksumDependsOnItsRangeOnly :
    0 + 2 + (if 0 < 3 then 1 else 0) ≤ printedSize .rx ∧
      (withBytes 0 [(3, 1)]).crc14Init = (withBytes 0 []).crc14Init ∧
      (withBytes 0 [(3, 1)]).bufByte .rx 3 ≠ (withBytes 0 []).bufByte .rx 3 ∧
      ∀ i < 3, (withBytes 0 [(3, 1)]).bufByte .rx i = (withBytes 0 []).bufByte .rx i := by decide

/-! ### Witnesses: decoding replies -/

theorem witness_ReplyWordsHaveTheirByteOrder :
    State.reset.swap5v.getLsbD (0 : Chip) = true ∧ State.reset.swap5v.getLsbD (1 : Chip) = false := by decide
theorem witness_SentinelIsDiscardedPerWord :
    (0 : Half) ≠ 0xFFFF ∧ (0xFFFE : Half) ≠ 0xFFFF ∧ Store.tvRaw 0 ≠ .tvRaw 1 ∧ Instr.decAux ∈ decodeCommands ∧
      (Store.auxT2 7, (0 : Half)) ∈ (replyStores 7 .decAux).zip (replyWords State.reset 7 .decAux) := by decide
theorem witness_ValidMapMarksExactlyTheAcceptedChips :
    Instr.decCva ∈ decodeCommands ∧ Instr.decTemp ∈ decodeCommands := by decide
theorem witness_CellGroupsDecodeIntoTheirSlots :
    (Instr.decCva, 0) ∈ cellGroups ∧ (Instr.decCve, 12) ∈ cellGroups := by decide
/-- One chip, every word of its temperature reply the sentinel. -/
theorem witness_AllSentinelReplyIsASilentMiss :
    Instr.decTemp ∈ decodeCommands ∧ (0 : Chip).val < (withBytes 1 [(2, 0xFF), (3, 0xFF)]).chipCount.toNat ∧
      ∀ c : Chip, c.val < (withBytes 1 [(2, 0xFF), (3, 0xFF)]).chipCount.toNat →
        ∀ w ∈ replyWords (withBytes 1 [(2, 0xFF), (3, 0xFF)]) c .decTemp, w = 0xFFFF := by
  refine ⟨by decide, by decide, fun c hc w hw => ?_⟩
  obtain rfl : c = 0 := Fin.ext (Nat.lt_one_iff.mp hc)
  exact (List.mem_singleton.mp hw).trans (by decide)
/-- A memory that differs in bytes DEC.TEMP does not read for one chip. -/
theorem witness_UnreadReplyBytesHaveNoEffect :
    Instr.decTemp ∈ decodeCommands ∧
      (∀ c : Chip, c.val < (withBytes 1 []).chipCount.toNat → ∀ j ∈ replyBytes c .decTemp,
        (⟨[(1, 9), (10, 9)]⟩ : Memory).read j = (withBytes 1 []).mem.read j) ∧
      (nextOf (exec .decTemp (withBytes 1 []))).isSome = true := by decide

/-! ### Witnesses: encoding configuration writes -/

theorem witness_EncCfgWritesTheFramesAndInvertsThePhase :
    (encState 8 0x7FFF).mem.wf = true ∧ (7 : Chip).val < (encState 8 0x7FFF).chipCount.toNat ∧
      (0 : Chip).val < (encState 1 0x7FFF).chipCount.toNat ∧ ¬(1 : Chip).val < (encState 1 0x7FFF).chipCount.toNat := by
  decide
theorem witness_PhaseSelectsThePatternOfEveryFrame :
    (encState 1 0x7FFF).mem.wf = true ∧ (0 : Chip).val < (encState 1 0x7FFF).chipCount.toNat ∧
      (nextOf (exec .encCfg (encState 1 0x7FFF))).map (·.frameMask 0) = some 0x2AAA := by decide
theorem witness_EncodedFramesHaveNoAdjacentCells :
    (encState 1 0xFFFF).mem.wf = true ∧ (0 : Chip).val < (encState 1 0xFFFF).chipCount.toNat ∧
      (nextOf (exec .encCfg (encState 1 0xFFFF))).isSome = true := by decide
theorem witness_TwoPassesPartitionTheMask :
    (encState 1 0x7FFF).mem.wf = true ∧ (0 : Chip).val < (encState 1 0x7FFF).chipCount.toNat ∧
      (encState 1 0x7FFF).status.phase = .even ∧
      ((nextOf (exec .encCfg (encState 1 0x7FFF))).bind fun t => nextOf (exec .encCfg t)).map (·.frameMask 0)
        = some 0x5555 := by decide
theorem witness_FrameChecksumRechecksInPlace :
    (encState 8 0x7FFF).mem.wf = true ∧ (7 : Chip).val < (encState 8 0x7FFF).chipCount.toNat ∧
      (nextOf (exec .encCfg (encState 8 0x7FFF))).isSome = true := by decide
/-- An ENC.CFG that executes, one that is ignored, and another command. -/
theorem witness_PhaseAlternatesOnExecutedEncodesOnly :
    (nextOf (step (about (.wr32 0x100 0x40000000)))).map (·.status.phase) = some .odd ∧
      (nextOf (step (aboutFaulted (.wr32 0x100 0x40000000)))).map (·.status.phase) = some .even ∧
      (nextOf (step (about (.wr32 0x100 0x30000000)))).map (·.status.phase) = some .even ∧
      (about (.wr32 0x100 0x40000000)).status.err = false ∧ (about (.wr32 0x100 0x40000000)).mem.wf = true ∧
      (0 : Chip).val < { about (.wr32 0x100 0x40000000) with chipCount := 1 }.chipCount.toNat := by decide

/-! ### Witnesses: invariants and whole-machine rules -/

theorem witness_EveryStepKeepsTheInvariant :
    (aboutFaulted (.wr8 0x108 9)).ok = true ∧ (nextOf (step (aboutFaulted (.wr8 0x108 9)))).isSome = true ∧
      ({ encState 8 0x7FFF with pending := [.wr32 0x100 0x40000000] } : State).ok = true := by decide
/-- A store word that is not the sentinel, with a decode of a sentinel pending. -/
theorem witness_StoresNeverHoldTheSentinel :
    ({ withBytes 1 [(2, 0xFF), (3, 0xFF)] with pending := [.wr32 0x100 0x38000000] } : State).noSentinel ∧
      (nextOf (step { withBytes 1 [(2, 0xFF), (3, 0xFF)] with pending := [.wr32 0x100 0x38000000] })).isSome = true := by
  refine ⟨fun d => ?_, by decide⟩
  cases d <;> simp [State.getStore, withBytes, State.reset, chipWordsReset, Config.sentinel]
theorem witness_TxNeverCommandsAdjacentCells :
    ({ encState 1 0xFFFF with pending := [.wr32 0x100 0x40000000] } : State).ok = true ∧
      (∀ c : Chip, ({ encState 1 0xFFFF with pending := [.wr32 0x100 0x40000000] } : State).noAdjacentCells c) ∧
      (nextOf (step { encState 1 0xFFFF with pending := [.wr32 0x100 0x40000000] })).isSome = true := by
  refine ⟨by decide, ?_, by decide⟩
  unfold State.noAdjacentCells
  decide
/-- A step that changes a store, and a pending write to the last store element. -/
theorem witness_OnlyDecodesAndResetWriteTheStores :
    (nextOf (step { withBytes 1 [(2, 0x34)] with pending := [.wr32 0x100 0x38000000] })).map
        (·.getStore (.tempRaw 0)) = some 0x34 ∧
      (about (.wr16 0x36E 1)).pending = [.wr16 (BitVec.ofNat 11 (Store.tempRaw 7).addr) 1] := by decide
/-- A step that changes `TX`, one that changes `VALIDMAP` and one that changes `CRC14_RES`. -/
theorem witness_ResultsChangeOnlyByTheirCommands :
    (nextOf (step { encState 1 0 with pending := [.wr32 0x100 0x40000000] })).map (·.bufByte .tx 0) = some 0xF3 ∧
      (nextOf (step { withBytes 1 [] with pending := [.wr32 0x100 0x30000000] })).map (·.validMap) = some 1 ∧
      (nextOf (step { withBytes 0 [(0, 1)] with pending := [.wr32 0x100 0x20000001] })).map (·.crc14Res)
        = some 0x025B := by decide
/-- A step that changes `CRC8_RES`, whatever the table is: over no byte it becomes the seed. -/
theorem witness_ResultsChangeOnlyByTheirCommands_crc8 :
    (nextOf (step (about (.wr32 0x100 0x10000000)))).map (·.crc8Res) = some 0x10 := by decide
/-- Two different states whose slots read the same millivolts. -/
theorem witness_CellMillivoltsAreExact :
    State.reset.cellMv 0 0 = (withBytes 1 [(1, 1)]).cellMv 7 14 ∧ State.reset ≠ withBytes 1 [(1, 1)] := by
  refine ⟨by decide +kernel, fun h => absurd (congrArg State.chipCount h) (by decide)⟩

/-! ### Witnesses: programs of the host -/

theorem witness_AssembledCommandRunsItsInstruction :
    assemble (.command (.crc14 .rx 0 1 3)) = some (.wr32 0x100 0x20030001) ∧
      (about (.wr32 0x100 0x20030001)).pending = [.wr32 0x100 0x20030001] ∧ State.reset.status.err = false ∧
      (Instr.crc14 .rx 127 127 7).wellFormed = true ∧ (Instr.crc14 .rx 127 127 8).wellFormed = false := by decide
theorem witness_BootSequenceLeavesTheBlockBooted :
    ({ State.reset with pending := bootOps 1 0xA9 } : State).pending = bootOps 1 0xA9 ++ [] ∧
      ({ State.reset with pending := bootOps 4 0 } : State).pending = bootOps 4 0 ++ [] ∧ 1 ≤ 1 ∧ 4 ≤ 4 :=
  ⟨rfl, rfl, Nat.le_refl 1, Nat.le_refl 4⟩

end Sys2Proof.Tests
end

section
/-! PROOFS of the statements of 10_state.md, first the rules they use: single updates, the host's writes at an element's own
address, and the values after reset. -/

namespace Sys2Proof.Machine

/-! ### Single updates -/

/-- Taking a fault is the update of `STATUS` that R213 prints, whether or not a fault was recorded before. -/
theorem State.raiseFault_eq_recordedStatus (s : State) (x : Cause) :
    s.raiseFault x = { s with status := recordedStatus s.status x } := by
  unfold State.raiseFault recordedStatus
  split <;> rfl

@[simp] theorem State.getStore_raiseFault (s : State) (x : Cause) (d : Store) :
    (s.raiseFault x).getStore d = s.getStore d := by
  rw [State.raiseFault_eq_recordedStatus]; rfl

@[simp] theorem State.getStore_rxWrite (s : State) (i : Nat) (v : Byte) (d : Store) :
    (s.rxWrite i v).getStore d = s.getStore d := rfl

/-- `RX` lies below `TX` (R61). -/
theorem State.bufByte_tx_rxWrite {s : State} {i : Nat} (hi : i < Config.rxSize) (v : Byte) (j : Nat) :
    (s.rxWrite i v).bufByte .tx j = s.bufByte .tx j :=
  Memory.read_write_other (by simp only [bufBase, Config.rxSize] at *; omega)

theorem writeChipCount_of_le {v : Byte} (h : v.toNat ≤ 8) (s : State) :
    writeChipCount v s = { s with chipCount := v } := if_neg (Nat.not_lt.mpr h)

theorem writeChipCount_of_gt {v : Byte} (h : 8 < v.toNat) (s : State) :
    writeChipCount v s = s.raiseFault .chipCountValue := if_pos h

/-! ### The host's next access is a write at an element's own address -/

/-- A value widened to the 32 bits of an access and cut to its own width again is itself. -/
theorem setWidth_setWidth_word {n : Nat} (v : BitVec n) (h : n ≤ 32) : (v.setWidth 32).setWidth n = v := by
  rw [BitVec.setWidth_setWidth_of_le v h, BitVec.setWidth_eq]

theorem step_wr8 {s : State} {v : Byte} {rest : List HostOp} (e : Elem) (hw : e.width = .w8)
    (hp : s.pending = .wr8 (BitVec.ofNat 11 e.addr) v :: rest) :
    step s = writeElem (v.setWidth 32) { s with pending := rest } e := by
  rw [step_of_cons hp, ← hostWrite_elem, hw]; rfl

theorem step_wr16 {s : State} {v : Half} {rest : List HostOp} (e : Elem) (hw : e.width = .w16)
    (hp : s.pending = .wr16 (BitVec.ofNat 11 e.addr) v :: rest) :
    step s = writeElem (v.setWidth 32) { s with pending := rest } e := by
  rw [step_of_cons hp, ← hostWrite_elem, hw]; rfl

/-- With `ERR = 0` a write of a command word to `CMD` stores the word and runs the command (R23, R92). -/
theorem writeCmd_of_decode {w : Word} {i : Instr} {s : State} (herr : s.status.err = false)
    (hd : decode w = .ok i) : writeCmd w s = exec i { s with cmd := w } := by
  rcases writeCmd_cases w s with ⟨herr', -⟩ | ⟨-, i', hd', hx⟩ | ⟨-, r, hd', -⟩
  · rw [herr] at herr'; cases herr'
  · rw [hd] at hd'; cases hd'; exact hx
  · rw [hd] at hd'; cases hd'

/-! ### After reset -/

theorem bufByte_reset (buf : Buf) (i : Nat) : State.reset.bufByte buf i = 0 := rfl

theorem getElem_chipWordsReset (c : Chip) : chipWordsReset[c] = 0 := Vector.getElem_replicate _

theorem getStore_reset (d : Store) : State.reset.getStore d = 0 := by
  cases d with
  | cellRaw c k =>
    simp only [State.getStore, State.reset, Fin.getElem_fin, Vector.getElem_replicate]
  | _ c => exact getElem_chipWordsReset c

theorem noAdjacentCells_reset (c : Chip) : State.reset.noAdjacentCells c := by
  simp only [State.noAdjacentCells, State.frameMask, bufByte_reset]
  decide

/-! ### Decoding -/

/-- A word that decodes matches the row its command is built by (R85, R92). -/
theorem exists_row_of_decode {w : Word} {i : Instr} (h : decode w = .ok i) :
    ∃ r ∈ opcodeTable, r.hits w = true ∧ r.build w = i := by
  unfold decode at h
  split at h
  · rename_i r hr
    injection h with h
    have hhit : r.hits w = true := List.find?_some (p := fun r : OpcodeRow => r.hits w) hr
    exact ⟨r, List.mem_of_find?_eq_some hr, hhit, h⟩
  · cases h

/-- `0x40000000` is the only word that is ENC.CFG: its row fixes every bit (R85). -/
theorem eq_word_of_decode_encCfg {w : Word} (h : decode w = .ok .encCfg) : w = 0x40000000 := by
  obtain ⟨r, hr, hhit, hbuild⟩ := exists_row_of_decode h
  have hlast : r ∈ encodeRows := by
    simp only [opcodeTable, checksumRows, decodeRows, List.mem_append, List.mem_cons, List.not_mem_nil, or_false] at hr
    rcases hr with ((rfl | rfl) | (rfl | rfl | rfl | rfl | rfl | rfl | rfl | rfl | rfl)) | hr
    all_goals first | exact hr | cases hbuild
  rw [encodeRows, List.mem_singleton] at hlast
  subst hlast
  have hword : w &&& BitVec.allOnes 32 = 0x40000000 := eq_of_beq hhit
  rwa [BitVec.and_allOnes] at hword

/-- The commands that run the loop of R150 are the nine decode commands. -/
theorem mem_decodeCommands_of_decodeSamples {i : Instr} {s : State} {samples : Chip → Samples}
    (h : decodeSamples s i = some samples) : i ∈ decodeCommands := by
  cases i with
  | crc8 => cases h
  | crc14 => cases h
  | encCfg => cases h
  | _ => decide

end Sys2Proof.Machine
end

section
/-! PROOFS of the statements of 10_state.md: what the state after a command is, and which of the elements that the host can
only read a step can change. -/

namespace Sys2Proof.Machine

/-- The state a command leaves, for each way it can end. -/
inductive ExecEffect (s : State) : Instr → State → Prop
  | crc8Fault (buf : Buf) (off len : Nat) : ExecEffect s (.crc8 buf off len) (s.raiseFault .range)
  | crc8Result (buf : Buf) (off len : Nat) (v : Byte) : ExecEffect s (.crc8 buf off len) { s with crc8Res := v }
  | crc14Fault (buf : Buf) (off len n : Nat) : ExecEffect s (.crc14 buf off len n) (s.raiseFault .range)
  | crc14Result (buf : Buf) (off len n : Nat) (v : Crc) :
      ExecEffect s (.crc14 buf off len n) { s with crc14Res := v.setWidth 16 }
  | decoded {i : Instr} {samples : Chip → Samples} (h : decodeSamples s i = some samples) :
      ExecEffect s i (decodeLoop samples s)
  | encoded :
      ExecEffect s .encCfg (s.activeChips.foldl (writeFrame (phasePattern s.status.phase)) s).invertPhase

theorem execEffect_of_exec {i : Instr} {s t : State} (h : exec i s = .next t) : ExecEffect s i t := by
  rcases exec_cases i s with ⟨buf, off, len, rfl, ⟨-, hx⟩ | ⟨v, hx⟩⟩ | ⟨buf, off, len, n, rfl, ⟨-, hx⟩ | ⟨v, hx⟩⟩ |
      ⟨samples, hs, hx⟩ | ⟨rfl, hx⟩ <;>
    (rw [hx] at h; injection h with h; subst h)
  · exact .crc8Fault buf off len
  · exact .crc8Result buf off len v
  · exact .crc14Fault buf off len n
  · exact .crc14Result buf off len n v
  · exact .decoded hs
  · exact .encoded

/-! ### What a decode and an encode leave alone -/

@[simp] theorem decodeLoop_mem (samples : Chip → Samples) (s : State) : (decodeLoop samples s).mem = s.mem := by
  rw [OnlyStores.decodeLoop]

@[simp] theorem decodeLoop_crc8Res (samples : Chip → Samples) (s : State) :
    (decodeLoop samples s).crc8Res = s.crc8Res := by
  rw [OnlyStores.decodeLoop]

@[simp] theorem decodeLoop_crc14Res (samples : Chip → Samples) (s : State) :
    (decodeLoop samples s).crc14Res = s.crc14Res := by
  rw [OnlyStores.decodeLoop]

theorem OnlyMem.getStore {s t : State} (h : OnlyMem s t) (d : Store) : t.getStore d = s.getStore d := by
  rw [h]; rfl

/-! ### Which command changes which element -/

namespace ExecEffect

variable {s t : State} {i : Instr}

theorem eq_encCfg_of_mem_ne (h : ExecEffect s i t) (hne : t.mem ≠ s.mem) : i = .encCfg := by
  cases h with
  | encoded => rfl
  | _ => simp at hne

theorem mem_decodeCommands_of_getStore_ne (h : ExecEffect s i t) {d : Store} (hne : t.getStore d ≠ s.getStore d) :
    i ∈ decodeCommands := by
  cases h with
  | decoded hs => exact mem_decodeCommands_of_decodeSamples hs
  | encoded => exact absurd ((OnlyMem.foldl_writeFrame _ _ s).getStore d) hne
  | crc8Result => exact absurd rfl hne
  | crc14Result => exact absurd rfl hne
  | _ => simp at hne

theorem mem_decodeCommands_of_validMap_ne (h : ExecEffect s i t) (hne : t.validMap ≠ s.validMap) :
    i ∈ decodeCommands := by
  cases h with
  | decoded hs => exact mem_decodeCommands_of_decodeSamples hs
  | encoded => exact absurd (congrArg State.validMap (OnlyMem.foldl_writeFrame _ _ s)) hne
  | _ => simp at hne

theorem eq_crc8_of_crc8Res_ne (h : ExecEffect s i t) (hne : t.crc8Res ≠ s.crc8Res) :
    ∃ buf off len, i = .crc8 buf off len := by
  cases h with
  | crc8Result buf off len => exact ⟨buf, off, len, rfl⟩
  | encoded => exact absurd (congrArg State.crc8Res (OnlyMem.foldl_writeFrame _ _ s)) hne
  | _ => simp at hne

theorem eq_crc14_of_crc14Res_ne (h : ExecEffect s i t) (hne : t.crc14Res ≠ s.crc14Res) :
    ∃ buf off len n, i = .crc14 buf off len n := by
  cases h with
  | crc14Result buf off len n => exact ⟨buf, off, len, n, rfl⟩
  | encoded => exact absurd (congrArg State.crc14Res (OnlyMem.foldl_writeFrame _ _ s)) hne
  | _ => simp at hne

end ExecEffect

/-! ### Which step can change an output -/

/-- `TX`, `VALIDMAP`, the two checksum results and the stores, which a host write cannot reach (R64), are in `t` what they
are in `s`. -/
structure KeepsOutputs (s t : State) : Prop where
  tx : ∀ j, t.bufByte .tx j = s.bufByte .tx j
  validMap : t.validMap = s.validMap
  crc8Res : t.crc8Res = s.crc8Res
  crc14Res : t.crc14Res = s.crc14Res
  stores : ∀ d, t.getStore d = s.getStore d

theorem KeepsOutputs.refl (s : State) : KeepsOutputs s s := ⟨fun _ => rfl, rfl, rfl, rfl, fun _ => rfl⟩

theorem KeepsOutputs.trans {s t u : State} (h : KeepsOutputs s t) (h' : KeepsOutputs t u) : KeepsOutputs s u where
  tx j := (h'.tx j).trans (h.tx j)
  validMap := h'.validMap.trans h.validMap
  crc8Res := h'.crc8Res.trans h.crc8Res
  crc14Res := h'.crc14Res.trans h.crc14Res
  stores d := (h'.stores d).trans (h.stores d)

/-- Taking an access off the host's list and storing a command word change no output. -/
theorem KeepsOutputs.delivery (s : State) (rest : List HostOp) (w : Word) :
    KeepsOutputs s { s with pending := rest, cmd := w } := ⟨fun _ => rfl, rfl, rfl, rfl, fun _ => rfl⟩

theorem KeepsOutputs.readData (s : State) (v : Word) : KeepsOutputs s { s with readData := v } :=
  ⟨fun _ => rfl, rfl, rfl, rfl, fun _ => rfl⟩

theorem KeepsOutputs.raiseFault (s : State) (x : Cause) : KeepsOutputs s (s.raiseFault x) where
  tx := by simp
  validMap := by simp
  crc8Res := by simp
  crc14Res := by simp
  stores := by simp

theorem KeepsOutputs.hostRead (n : Width) (a : Addr) (s : State) : KeepsOutputs s (hostRead n a s) := by
  rcases hostRead_cases n a s with ⟨e, -, hr⟩ | ⟨-, hr⟩ <;> rw [hr]
  · exact .readData s _
  · exact (KeepsOutputs.raiseFault s .access).trans (.readData _ 0)

theorem PlainWrite.keepsOutputs {s t : State} (h : PlainWrite s t) : KeepsOutputs s t := by
  rcases h with ⟨i, v, rfl⟩ | ⟨v, rfl⟩ | ⟨v, rfl⟩ | ⟨v, rfl⟩ | ⟨c, v, rfl⟩ | rfl
  · exact ⟨State.bufByte_tx_rxWrite i.isLt v, rfl, rfl, rfl, fun _ => rfl⟩
  · unfold writeChipCount
    split
    · exact KeepsOutputs.raiseFault s .chipCountValue
    · exact ⟨fun _ => rfl, rfl, rfl, rfl, fun _ => rfl⟩
  · exact ⟨fun _ => rfl, rfl, rfl, rfl, fun _ => rfl⟩
  · exact ⟨fun _ => rfl, rfl, rfl, rfl, fun _ => rfl⟩
  · exact ⟨fun _ => rfl, rfl, rfl, rfl, fun _ => rfl⟩
  · exact KeepsOutputs.raiseFault s .access

/-- A step keeps every output, or is reset, or runs a command while `ERR = 0`. -/
theorem step_outputs {s t : State} (h : step s = .next t) :
    KeepsOutputs s t ∨
    (∃ rest, s.pending = .reset :: rest ∧ t = ({ s with pending := rest } : State).resetInput) ∨
    ∃ w rest i, s.pending = .wr32 cmdAddr w :: rest ∧ s.status.err = false ∧ decode w = .ok i ∧
      ExecEffect { s with pending := rest, cmd := w } i t := by
  rcases step_cases h with ⟨-, rfl⟩ | ⟨op, rest, hp, ⟨n, a, -, rfl⟩ | ⟨rfl, rfl⟩ | ⟨w, rfl, hw⟩ | ⟨-, -, -, hplain⟩⟩
  · exact .inl (.refl _)
  · exact .inl ((KeepsOutputs.delivery s rest s.cmd).trans (.hostRead n a _))
  · exact .inr (.inl ⟨rest, hp, rfl⟩)
  · rcases writeCmd_cases w { s with pending := rest } with ⟨-, hx⟩ | ⟨herr, i, hd, hx⟩ | ⟨-, r, -, hx⟩
    · rw [hx] at hw
      injection hw with hw
      subst hw
      exact .inl (.delivery s rest s.cmd)
    · rw [hx] at hw
      exact .inr (.inr ⟨w, rest, i, hp, herr, hd, execEffect_of_exec hw⟩)
    · rw [hx] at hw
      injection hw with hw
      subst hw
      exact .inl ((KeepsOutputs.delivery s rest w).trans (.raiseFault _ .illegalCmd))
  · exact .inl ((KeepsOutputs.delivery s rest s.cmd).trans hplain.keepsOutputs)

end Sys2Proof.Machine
end

section
/-! PROOFS of the statements of 10_state.md: every step keeps `State.ok`. -/

namespace Sys2Proof.Machine

/-- The parts of the invariant, by the rules they come from: R61, R28, R31, R34, R26. -/
theorem State.ok_iff {s : State} :
    s.ok = true ↔ s.mem.wf = true ∧ s.mem.inBuffers = true ∧ s.chipCount.toNat ≤ 8 ∧ s.crc14Init.toNat < 2 ^ 14 ∧
      s.crc14Res.toNat < 2 ^ 14 ∧ s.status.ok = true := by
  simp [State.ok, Bool.and_eq_true, and_assoc]

/-- A recorded fault has a cause, and a later one leaves it (R26, R213). -/
theorem Status.ok_recordedStatus {st : Status} {x : Cause} (hx : x ≠ .none) (h : st.ok = true) :
    (recordedStatus st x).ok = true := by
  unfold recordedStatus
  split
  · exact h
  · simp [Status.ok, hx]

theorem State.ok_raiseFault {s : State} {x : Cause} (hx : x ≠ .none) (h : s.ok = true) :
    (s.raiseFault x).ok = true := by
  obtain ⟨hwf, hbuf, hcount, hinit, hres, hst⟩ := State.ok_iff.mp h
  rw [State.raiseFault_eq_recordedStatus]
  exact State.ok_iff.mpr ⟨hwf, hbuf, hcount, hinit, hres, Status.ok_recordedStatus hx hst⟩

theorem State.ok_reset : State.reset.ok = true := rfl

theorem State.ok_hostRead {s : State} (n : Width) (a : Addr) (h : s.ok = true) : (hostRead n a s).ok = true := by
  rcases hostRead_cases n a s with ⟨e, -, hr⟩ | ⟨-, hr⟩ <;> rw [hr]
  · exact h
  · exact State.ok_raiseFault (by decide) h

theorem State.ok_writeChipCount {s : State} (v : Byte) (h : s.ok = true) : (writeChipCount v s).ok = true := by
  obtain ⟨hwf, hbuf, -, hinit, hres, hst⟩ := State.ok_iff.mp h
  rcases Nat.lt_or_ge 8 v.toNat with hv | hv
  · rw [writeChipCount_of_gt hv]
    exact State.ok_raiseFault (by decide) h
  · rw [writeChipCount_of_le hv]
    exact State.ok_iff.mpr ⟨hwf, hbuf, hv, hinit, hres, hst⟩

/-- The write that R31 masks leaves bits 15:14 at 0. -/
theorem toNat_and_crc14Mask_lt (v : Half) : (v &&& Config.crc14Mask).toNat < 2 ^ 14 := by
  rw [BitVec.toNat_and]
  exact Nat.and_lt_two_pow _ (by decide)

theorem PlainWrite.ok {s t : State} (hw : PlainWrite s t) (h : s.ok = true) : t.ok = true := by
  obtain ⟨hwf, hbuf, hcount, hinit, hres, hst⟩ := State.ok_iff.mp h
  rcases hw with ⟨i, v, rfl⟩ | ⟨v, rfl⟩ | ⟨v, rfl⟩ | ⟨v, rfl⟩ | ⟨c, v, rfl⟩ | rfl
  · exact State.ok_iff.mpr
      ⟨Memory.wf_write hwf, Memory.inBuffers_write_rx i.isLt hbuf, hcount, hinit, hres, hst⟩
  · exact State.ok_writeChipCount v h
  · exact h
  · exact State.ok_iff.mpr ⟨hwf, hbuf, hcount, toNat_and_crc14Mask_lt v, hres, hst⟩
  · exact h
  · exact State.ok_raiseFault (by decide) h

/-- The frames' bytes stay inside `TX`, and inverting the phase touches neither `ERR` nor `CAUSE` (R36, R194). -/
theorem State.ok_encode {s : State} (pattern : Byte) (l : List Chip) (h : s.ok = true) :
    (l.foldl (writeFrame pattern) s).invertPhase.ok = true := by
  obtain ⟨hwf, hbuf, hcount, hinit, hres, hst⟩ := State.ok_iff.mp h
  have hwf' := wf_foldl_writeFrame hwf pattern l
  have hbuf' := inBuffers_foldl_writeFrame hbuf pattern l
  rw [OnlyMem.foldl_writeFrame pattern l s]
  exact State.ok_iff.mpr ⟨hwf', hbuf', hcount, hinit, hres, hst⟩

theorem ExecEffect.ok {s t : State} {i : Instr} (he : ExecEffect s i t) (h : s.ok = true) : t.ok = true := by
  obtain ⟨hwf, hbuf, hcount, hinit, hres, hst⟩ := State.ok_iff.mp h
  cases he with
  | crc8Fault => exact State.ok_raiseFault (by decide) h
  | crc8Result => exact h
  | crc14Fault => exact State.ok_raiseFault (by decide) h
  | crc14Result buf off len n v =>
    have hv : (v.setWidth 16).toNat < 2 ^ 14 := by
      rw [BitVec.toNat_setWidth_of_le (by decide)]
      exact v.isLt
    exact State.ok_iff.mpr ⟨hwf, hbuf, hcount, hinit, hv, hst⟩
  | decoded hs =>
    rw [OnlyStores.decodeLoop]
    exact h
  | encoded => exact State.ok_encode _ _ h

theorem State.ok_writeCmd {w : Word} {s t : State} (h : s.ok = true) (hw : writeCmd w s = .next t) : t.ok = true := by
  rcases writeCmd_cases w s with ⟨-, hx⟩ | ⟨-, i, -, hx⟩ | ⟨-, r, -, hx⟩ <;> rw [hx] at hw
  · injection hw with hw
    exact hw ▸ h
  · exact (execEffect_of_exec hw).ok h
  · injection hw with hw
    exact hw ▸ State.ok_raiseFault (s := { s with cmd := w }) (by decide) h

/-- Settles O52: each thing a step can do keeps the invariant. -/
theorem everyStepKeepsTheInvariant : Obligations.EveryStepKeepsTheInvariant := by
  intro s t hok hstep
  rcases step_cases hstep with ⟨-, rfl⟩ | ⟨op, rest, -, ⟨n, a, -, rfl⟩ | ⟨-, rfl⟩ | ⟨w, -, hw⟩ | ⟨-, -, -, hplain⟩⟩
  · exact hok
  · exact State.ok_hostRead n a hok
  · exact State.ok_reset
  · exact State.ok_writeCmd (s := { s with pending := rest }) hok hw
  · exact hplain.ok hok

end Sys2Proof.Machine
end

section
/-! PROOFS of the statements of 10_state.md: no step leaves a frame in `TX` that commands two adjacent cells. -/

namespace Sys2Proof.Machine

/-! ### The balance bits of a frame -/

/-- The two bytes of a frame's mask are the balance mask under the pattern, repeated in both bytes (R192). -/
theorem append_and_pattern (b : Half) (p : Byte) :
    ((b >>> 8).setWidth 8 &&& p) ++ (b.setWidth 8 &&& p) = b &&& (p ++ p) := by
  have hb : (b >>> 8).setWidth 8 ++ b.setWidth 8 = b := by
    ext k hk
    simp only [BitVec.getElem_append, BitVec.getElem_setWidth, BitVec.getLsbD_ushiftRight]
    split
    · rfl
    · rw [Nat.add_sub_cancel' (by omega)]; rfl
  calc ((b >>> 8).setWidth 8 &&& p) ++ (b.setWidth 8 &&& p)
      = ((b >>> 8).setWidth 8 ++ b.setWidth 8) &&& (p ++ p) := BitVec.and_append.symm
    _ = b &&& (p ++ p) := by rw [hb]

/-- A mask with no two adjacent bits passes no two adjacent bits. -/
theorem and_ushiftRight_one_of_pattern {q : Half} (hq : q &&& q >>> 1 = 0) (b : Half) :
    (b &&& q) &&& ((b &&& q) >>> 1) = 0 := by
  calc (b &&& q) &&& ((b &&& q) >>> 1)
      = (b &&& b >>> 1) &&& (q &&& q >>> 1) := by rw [BitVec.ushiftRight_and_distrib]; ac_rfl
    _ = 0 := by rw [hq]; exact BitVec.and_zero

/-- Neither pattern has two adjacent bits (R191). -/
theorem phasePattern_nonadjacent (p : Phase) :
    (phasePattern p ++ phasePattern p : Half) &&& (phasePattern p ++ phasePattern p : Half) >>> 1 = 0 := by
  cases p <;> decide

/-- The balance bits of a chip's frame after the frames of a list of chips with it among them were written. -/
theorem frameMask_foldl_writeFrame {s : State} (h : s.mem.wf = true) (pattern : Byte) {l : List Chip} (hl : l.Nodup)
    {c : Chip} (hc : c ∈ l) :
    (l.foldl (writeFrame pattern) s).frameMask c = s.balMask[c] &&& (pattern ++ pattern) := by
  have hbyte : ∀ j < 6, (l.foldl (writeFrame pattern) s).bufByte .tx (6 * c + j)
      = frameByteOf pattern s.balMask[c] s.crcSeed j := by
    intro j hj
    rw [← read_foldl_writeFrame h pattern hl hc hj, Nat.add_assoc]
    rfl
  rw [State.frameMask, hbyte 3 (by omega), hbyte 2 (by omega)]
  exact append_and_pattern _ _

/-- A chip whose frame is not written keeps its balance bits. -/
theorem frameMask_foldl_writeFrame_other {s : State} (h : s.mem.wf = true) (pattern : Byte) {l : List Chip} {c : Chip}
    (hc : c ∉ l) : (l.foldl (writeFrame pattern) s).frameMask c = s.frameMask c := by
  have hbyte : ∀ j < 6, (l.foldl (writeFrame pattern) s).bufByte .tx (6 * c + j) = s.bufByte .tx (6 * c + j) := by
    intro j hj
    refine read_foldl_writeFrame_other h pattern fun c' hc' hr => hc ?_
    have heq : c' = c := Fin.ext (by simp only [bufBase] at hr; omega)
    exact heq ▸ hc'
  rw [State.frameMask, hbyte 3 (by omega), hbyte 2 (by omega), State.frameMask]

/-! ### The property, step by step -/

theorem State.noAdjacentCells_congr {s t : State} (h : ∀ j, t.bufByte .tx j = s.bufByte .tx j) (c : Chip) :
    t.noAdjacentCells c ↔ s.noAdjacentCells c := by
  simp only [State.noAdjacentCells, State.frameMask, h]

/-- ENC.CFG writes each active chip's frame under one pattern and leaves the other frames (R190, R191). -/
theorem noAdjacentCells_encode {s : State} (hwf : s.mem.wf = true) (p : Phase) {c : Chip} (h : s.noAdjacentCells c) :
    (s.activeChips.foldl (writeFrame (phasePattern p)) s).invertPhase.noAdjacentCells c := by
  rw [State.noAdjacentCells_congr (State.bufByte_invertPhase _ _), State.noAdjacentCells]
  by_cases hc : c ∈ s.activeChips
  · rw [frameMask_foldl_writeFrame hwf _ (nodup_activeChips s) hc]
    exact and_ushiftRight_one_of_pattern (phasePattern_nonadjacent p) _
  · rw [frameMask_foldl_writeFrame_other hwf _ hc]
    exact h

theorem ExecEffect.noAdjacentCells {s t : State} {i : Instr} (he : ExecEffect s i t) (hwf : s.mem.wf = true)
    {c : Chip} (h : s.noAdjacentCells c) : t.noAdjacentCells c := by
  by_cases hm : t.mem = s.mem
  · exact (State.noAdjacentCells_congr (State.bufByte_congr hm .tx) c).mpr h
  · obtain rfl := he.eq_encCfg_of_mem_ne hm
    cases he with
    | decoded hs => cases hs
    | encoded => exact noAdjacentCells_encode hwf _ h

/-- Settles O55: a step keeps `TX`, or is reset, or runs a command. -/
theorem txNeverCommandsAdjacentCells : Obligations.TxNeverCommandsAdjacentCells := by
  intro s t hok hadj hstep c
  rcases step_outputs hstep with hkeeps | ⟨rest, -, rfl⟩ | ⟨w, rest, i, -, -, -, he⟩
  · exact (State.noAdjacentCells_congr hkeeps.tx c).mpr (hadj c)
  · exact noAdjacentCells_reset c
  · exact he.noAdjacentCells (State.ok_iff.mp hok).1 (hadj c)

end Sys2Proof.Machine
end

section
/-! PROOFS of the statements of 10_state.md: the host's writes, the writers of each element, and `STATUS`. -/

namespace Sys2Proof.Machine

/-- Settles O18: the write reaches `RX[i]`, and the laws of the byte memory say the rest. -/
theorem rxWriteStoresOneByte : Obligations.RxWriteStoresOneByte := by
  intro s i v rest hwf hi hp
  have haddr : (Elem.rx ⟨i, hi⟩).addr = i := Nat.zero_add i
  have hbase : bufBase .rx + i = i := Nat.zero_add i
  have hstep := step_wr8 (.rx ⟨i, hi⟩) rfl (haddr.symm ▸ hp)
  refine ⟨_, hstep, rfl, ?_, fun a ha => ?_⟩
  · simp only [State.rxWrite_mem, hbase, Memory.read_write_same hwf]
    exact setWidth_setWidth_word v (by decide)
  · simp only [State.rxWrite_mem, hbase]
    exact Memory.read_write_other ha

/-! ### `ERR` (R25) -/

theorem status_hostRead_of_err {s : State} (n : Width) (a : Addr) (h : s.status.err = true) :
    (hostRead n a s).status = s.status := by
  rcases hostRead_cases n a s with ⟨e, -, hr⟩ | ⟨-, hr⟩ <;> rw [hr]
  rw [State.raiseFault_of_err h]

theorem PlainWrite.status_of_err {s t : State} (hw : PlainWrite s t) (h : s.status.err = true) :
    t.status = s.status := by
  rcases hw.status with hst | rfl | rfl
  · exact hst
  · rw [State.raiseFault_of_err h]
  · rw [State.raiseFault_of_err h]

theorem writeCmd_of_err {s : State} (w : Word) (h : s.status.err = true) : writeCmd w s = .next s := if_pos h

/-- While `ERR = 1`, no step but reset changes `STATUS` at all. -/
theorem step_status_of_err {s t : State} (hstep : step s = .next t) (herr : s.status.err = true)
    (hreset : ∀ rest, s.pending ≠ .reset :: rest) : t.status = s.status := by
  rcases step_cases hstep with ⟨-, rfl⟩ | ⟨op, rest, hp, ⟨n, a, -, rfl⟩ | ⟨rfl, -⟩ | ⟨w, -, hw⟩ | ⟨-, -, -, hplain⟩⟩
  · rfl
  · exact status_hostRead_of_err (s := { s with pending := rest }) n a herr
  · exact absurd hp (hreset rest)
  · rw [writeCmd_of_err (s := { s with pending := rest }) w herr] at hw
    injection hw with hw
    rw [← hw]
  · exact hplain.status_of_err herr

/-- Settles O21: the second clause holds of the whole of `STATUS`. -/
theorem errSticksUntilReset : Obligations.ErrSticksUntilReset := by
  refine ⟨fun s x _ => s.raiseFault_err x, fun s t hstep herr hreset => ?_, fun s rest hp => ?_⟩
  · rw [step_status_of_err hstep herr hreset]
    exact ⟨herr, rfl⟩
  · exact ⟨_, step_of_cons hp, rfl⟩

/-! ### The writers of each element (R22, R43) -/

/-- Settles O56: of the commands, only the decodes have an effect on a store; a store's address admits a 16-bit access. -/
theorem onlyDecodesAndResetWriteTheStores : Obligations.OnlyDecodesAndResetWriteTheStores := by
  refine ⟨fun s t d hstep hne => ?_, fun s d v rest hp => ?_⟩
  · rcases step_outputs hstep with hkeeps | ⟨rest, hp, -⟩ | ⟨w, rest, i, hp, herr, hd, he⟩
    · exact absurd (hkeeps.stores d) hne
    · exact .inl ⟨rest, hp⟩
    · exact .inr ⟨w, rest, i, hp, herr, hd, he.mem_decodeCommands_of_getStore_ne hne⟩
  · rw [step_wr16 (.store d) rfl hp, writeElem, State.raiseFault_eq_recordedStatus]

/-- Settles O57: a step that keeps no output and is not reset runs a command, and each output has its own. -/
theorem resultsChangeOnlyByTheirCommands : Obligations.ResultsChangeOnlyByTheirCommands := by
  intro s t hstep hreset
  rcases step_outputs hstep with hkeeps | ⟨rest, hp, -⟩ | ⟨w, rest, i, hp, herr, hd, he⟩
  · exact ⟨fun ⟨j, _, hne⟩ => absurd (hkeeps.tx j) hne, fun hne => absurd hkeeps.validMap hne,
      fun hne => absurd hkeeps.crc8Res hne, fun hne => absurd hkeeps.crc14Res hne⟩
  · exact absurd hp (hreset rest)
  · refine ⟨fun ⟨j, _, hne⟩ => ⟨herr, rest, ?_⟩, fun hne => ⟨herr, w, rest, i, hp, hd, ?_⟩,
      fun hne => ⟨herr, w, rest, ?_⟩, fun hne => ⟨herr, w, rest, ?_⟩⟩
    · obtain rfl : i = .encCfg := he.eq_encCfg_of_mem_ne fun hm => hne (State.bufByte_congr hm .tx j)
      rw [hp, eq_word_of_decode_encCfg hd]
      rfl
    · exact he.mem_decodeCommands_of_validMap_ne hne
    · obtain ⟨buf, off, len, rfl⟩ := he.eq_crc8_of_crc8Res_ne hne
      exact ⟨buf, off, len, hp, hd⟩
    · obtain ⟨buf, off, len, n, rfl⟩ := he.eq_crc14_of_crc14Res_ne hne
      exact ⟨buf, off, len, n, hp, hd⟩

/-! ### Commands and register writes -/

/-- Settles O6: the access is a write to `CMD`, and the word decodes. -/
theorem stepRunsTheDecodedCommand : Obligations.StepRunsTheDecodedCommand := by
  intro s w rest i hp herr hd
  calc step s = writeCmd w { s with pending := rest } := step_of_cons hp
    _ = exec i { s with pending := rest, cmd := w } := writeCmd_of_decode herr hd

/-- Settles O16, from the two cases of a write to `CHIPCOUNT`. -/
theorem chipCountWriteStoresOrFaults : Obligations.ChipCountWriteStoresOrFaults := by
  intro s v rest hp
  have hstep : step s = .next (writeChipCount v { s with pending := rest }) := by
    rw [step_wr8 .chipCount rfl hp, writeElem, setWidth_setWidth_word v (by decide)]
  refine ⟨fun hv => ?_, fun hv => ?_⟩
  · rw [hstep, writeChipCount_of_le hv]
  · rw [hstep, writeChipCount_of_gt hv, State.raiseFault_eq_recordedStatus]

/-- Settles O17: each address is that of a register, which takes the value cut to its own width. -/
theorem configRegisterWritesStoreTheValue : Obligations.ConfigRegisterWritesStoreTheValue := by
  refine fun s rest => ⟨fun v hp => ?_, fun v hp => ?_, fun c v hp => ?_⟩
  · rw [step_wr8 .swap5v rfl hp, writeElem, setWidth_setWidth_word v (by decide)]
  · rw [step_wr16 .crc14Init rfl hp, writeElem, setWidth_setWidth_word v (by decide)]
    rfl
  · rw [step_wr16 (.balMask c) rfl hp, writeElem, setWidth_setWidth_word v (by decide)]

/-! ### Values: after reset, `STATUS`, millivolts -/

/-- Settles O11: the registers are literals, the arrays hold the same word at every index. -/
theorem resetStateHoldsThePrintedValues : Obligations.ResetStateHoldsThePrintedValues :=
  ⟨rfl, rfl, rfl, rfl, rfl, rfl, rfl, rfl, rfl, rfl, getElem_chipWordsReset, fun i _ => bufByte_reset .rx i,
    fun i _ => bufByte_reset .tx i, getStore_reset⟩

/-- Settles O53: every store and every byte of `TX` is 0 after reset. -/
theorem resetStateMeetsTheInvariants : Obligations.ResetStateMeetsTheInvariants := by
  refine ⟨State.ok_reset, fun d => ?_, noAdjacentCells_reset⟩
  rw [getStore_reset]
  decide

/-- The three fields of `STATUS` take bits of their own, so the word is their sum (R24). -/
theorem Status.toNat_word (st : Status) :
    st.word.toNat = st.err.toNat + 16 * st.cause.code.toNat + 256 * (phaseBit st.phase).toNat := by
  have hfields : ∀ (e p : Bool) (code : BitVec 4),
      ((BitVec.ofBool e).setWidth 32 ||| (code.setWidth 32 <<< 4) ||| ((BitVec.ofBool p).setWidth 32 <<< 8) : Word).toNat
        = e.toNat + 16 * code.toNat + 256 * p.toNat := by decide
  exact hfields st.err (phaseBit st.phase) st.cause.code

/-- Settles O20: the fields' values are the codes of R211 and the phase bit of R27. -/
theorem statusWordHasThePrintedLayout : Obligations.StatusWordHasThePrintedLayout := by
  intro st
  obtain ⟨err, cause, phase⟩ := st
  have herr : err.toNat = if err then 1 else 0 := by cases err <;> rfl
  rw [Status.toNat_word, herr]
  congr 2
  · cases cause <;> rfl
  · cases phase <;> rfl

/-- A slot's millivolts as the quotient of whole numbers. -/
theorem State.cellMv_eq (s : State) (c : Chip) (k : Slot) :
    s.cellMv c k = 2 * (s.cellRaw[c][k].toNat : ℚ) / 25 := by
  simp only [State.cellMv, Config.mvDiv]
  ring

/-- Settles O58: a raw code is a 16-bit number, and the scale is not 0. -/
theorem cellMillivoltsAreExact : Obligations.CellMillivoltsAreExact := by
  intro s t c k
  have hmax : (s.cellRaw[c][k].toNat : ℚ) ≤ 65535 := by exact_mod_cast Nat.le_of_lt_succ s.cellRaw[c][k].isLt
  refine ⟨s.cellMv_eq c k, ?_, ?_, fun heq => BitVec.eq_of_toNat_eq ?_⟩
  · rw [State.cellMv_eq]
    positivity
  · rw [State.cellMv_eq]
    linarith
  · rw [State.cellMv_eq, State.cellMv_eq] at heq
    have hraw : (s.cellRaw[c][k].toNat : ℚ) = t.cellRaw[c][k].toNat := by linarith
    exact_mod_cast hraw

end Sys2Proof.Machine
end

section
/-! PROOFS of the statements of 20_memory.md, first the rules they use: where elements of each width lie, and a step whose
access is a host read or write of any width. -/

namespace Sys2Proof.Machine

/-! ### Where elements lie (R60 to R62) -/

/-- The addresses at which elements of a width start (R61): 8-bit ones in the buffers and among the control registers,
32-bit ones at `CMD` and `STATUS`, 16-bit ones above all of these. -/
def Width.region : Width → Nat → Prop
  | .w8, a => a < 0x0B0 ∨ (0x108 ≤ a ∧ a < 0x10C)
  | .w16, a => 0x10C ≤ a
  | .w32, a => 0x100 ≤ a ∧ a < 0x108

theorem Elem.region_addr (e : Elem) : e.width.region e.addr := by
  cases e with
  | rx i =>
    have hi := i.isLt
    simp only [Elem.width, Width.region, Elem.addr, bufBase, Config.rxSize] at hi ⊢
    omega
  | tx i =>
    have hi := i.isLt
    simp only [Elem.width, Width.region, Elem.addr, bufBase, Config.txSize] at hi ⊢
    omega
  | balMask c =>
    simp only [Elem.width, Width.region, Elem.addr]
    omega
  | store d => cases d <;> simp only [Elem.width, Width.region, Elem.addr, Store.addr] <;> omega
  | _ => simp [Elem.width, Width.region, Elem.addr]

theorem Elem.addr_injective : Function.Injective Elem.addr := fun e e' h => by
  have hat : some e = some e' := by rw [← elemAt_addr e, h, elemAt_addr e']
  exact Option.some.inj hat

/-- Ranges of one width, aligned to it, are the same or apart. -/
theorem Width.disjoint_of_aligned {n : Width} {a a' : Nat} (hal : a % n.bytes = 0) (hal' : a' % n.bytes = 0)
    (hne : a ≠ a') : a + n.bytes ≤ a' ∨ a' + n.bytes ≤ a := by
  cases n <;> simp only [Width.bytes] at * <;> omega

/-- Aligned ranges of two widths are apart, because the regions of the widths are. -/
theorem Width.disjoint_of_region {n n' : Width} {a a' : Nat} (hn : n ≠ n') (hr : n.region a) (hr' : n'.region a')
    (hal : a % n.bytes = 0) (hal' : a' % n'.bytes = 0) : a + n.bytes ≤ a' ∨ a' + n'.bytes ≤ a := by
  cases n <;> cases n' <;> simp only [Width.region, Width.bytes, ne_eq, not_true_eq_false] at * <;> omega

/-- Settles O12: two elements of one width have distinct aligned addresses, and the widths have regions of their own. -/
theorem elementsAreAlignedAndDisjoint : Obligations.ElementsAreAlignedAndDisjoint := by
  refine ⟨fun e => ?_, fun e e' hne => ?_⟩
  · obtain ⟨hlt, halign⟩ := e.addr_fits
    have hbytes : e.width.bytes ≤ 4 := by cases e.width <;> decide
    exact ⟨halign, by omega⟩
  · obtain ⟨-, halign⟩ := e.addr_fits
    obtain ⟨-, halign'⟩ := e'.addr_fits
    by_cases hw : e.width = e'.width
    · rw [← hw] at halign' ⊢
      exact Width.disjoint_of_aligned halign halign' (Elem.addr_injective.ne hne)
    · exact Width.disjoint_of_region hw e.region_addr e'.region_addr halign halign'

/-! ### Reads -/

theorem step_readOp {s : State} {n : Width} {a : Addr} {rest : List HostOp} (hp : s.pending = readOp n a :: rest) :
    step s = .next (hostRead n a { s with pending := rest }) := by
  rw [step_of_cons hp]
  cases n <;> rfl

theorem hostRead_elem (e : Elem) (s : State) :
    hostRead e.width (BitVec.ofNat 11 e.addr) s = { s with readData := readElem s e } := by
  rw [hostRead, admitted_elem]

/-- What an element reads as does not depend on the accesses to come. -/
theorem readElem_pending (s : State) (rest : List HostOp) (e : Elem) :
    readElem { s with pending := rest } e = readElem s e := by
  cases e <;> rfl

/-- Every element is read at its own address and width (R62, R65). -/
theorem Elem.readsAs (e : Elem) : ReadsAs e e.width e.addr fun s => readElem s e :=
  ⟨rfl, rfl, fun s rest hp => by rw [step_readOp hp, hostRead_elem, readElem_pending]⟩

/-- `RX` starts at host address 0, so a byte's address is its index. -/
theorem readsAs_rx (i : Fin 75) : ReadsAs (.rx i) .w8 i fun s => (s.mem.read i).setWidth 32 := by
  simpa only [Elem.width, Elem.addr, readElem, State.bufByte, bufBase, Nat.zero_add] using (Elem.rx i).readsAs

/-- Settles O13: each row is the read of its element. -/
theorem admittedReadReturnsTheElement : Obligations.AdmittedReadReturnsTheElement :=
  ⟨readsAs_rx, fun i => (Elem.tx i).readsAs, Elem.cmd.readsAs, Elem.status.readsAs, Elem.chipCount.readsAs,
    Elem.swap5v.readsAs, Elem.validMap.readsAs, Elem.crc8Res.readsAs, Elem.crc14Res.readsAs, Elem.crc14Init.readsAs,
    fun c => (Elem.balMask c).readsAs, fun c k => (Elem.store (.cellRaw c k)).readsAs,
    fun c => (Elem.store (.tvRaw c)).readsAs, fun c => (Elem.store (.auxT1 c)).readsAs,
    fun c => (Elem.store (.aux5v c)).readsAs, fun c => (Elem.store (.auxT2 c)).readsAs,
    fun c => (Elem.store (.cfgW0 c)).readsAs, fun c => (Elem.store (.cfgW1 c)).readsAs,
    fun c => (Elem.store (.tempRaw c)).readsAs⟩

/-! ### Accesses that raise ACCESS (R63, R64) -/

/-- The step that performs a host write; the value written is `v` cut to the width of the access. -/
theorem step_writeOp {s : State} {n : Width} {a : Addr} {v : Word} {rest : List HostOp}
    (hp : s.pending = writeOp n a v :: rest) : ∃ v', step s = hostWrite n a v' { s with pending := rest } := by
  rw [step_of_cons hp]
  cases n <;> exact ⟨_, rfl⟩

theorem hostRead_of_not_admitted {n : Width} {a : Addr} (h : admitted n a = none) (s : State) :
    hostRead n a s = { s.raiseFault .access with readData := 0 } := by
  rw [hostRead, h]

theorem hostWrite_of_not_admitted {n : Width} {a : Addr} (h : admitted n a = none) (v : Word) (s : State) :
    hostWrite n a v s = .next (s.raiseFault .access) := by
  rw [hostWrite, h]

theorem writeElem_of_hostReadOnly {e : Elem} (h : hostReadOnly e) (v : Word) (s : State) :
    writeElem v s e = .next (s.raiseFault .access) := by
  rcases h with ⟨i, rfl⟩ | rfl | rfl | rfl | rfl | ⟨d, rfl⟩ <;> rfl

/-- Settles O14: no element admits the access, and the fault is the update of `STATUS` that R213 prints. -/
theorem accessNotAdmittedRaisesAccess : Obligations.AccessNotAdmittedRaisesAccess := by
  intro s n a v rest hnone
  have hadm : admitted n a = none := admitted_none hnone
  refine ⟨fun hp => ?_, fun hp => ?_⟩
  · rw [step_readOp hp, hostRead_of_not_admitted hadm, State.raiseFault_eq_recordedStatus]
  · obtain ⟨v', hstep⟩ := step_writeOp hp
    rw [hstep, hostWrite_of_not_admitted hadm, State.raiseFault_eq_recordedStatus]

/-- Settles O15: the access is admitted to the element, whose own rule is the fault. -/
theorem writeToReadOnlyElementRaisesAccess : Obligations.WriteToReadOnlyElementRaisesAccess := by
  intro s e v rest hro hp
  obtain ⟨v', hstep⟩ := step_writeOp hp
  rw [hstep, hostWrite_elem, writeElem_of_hostReadOnly hro, State.raiseFault_eq_recordedStatus]

/-! ### Writes done twice (R68) -/

theorem step_wr8_rx {s : State} {i : Nat} {v : Byte} {rest : List HostOp} (hi : i < 75)
    (hp : s.pending = .wr8 (BitVec.ofNat 11 i) v :: rest) :
    step s = .next (({ s with pending := rest } : State).rxWrite i v) := by
  have haddr : (Elem.rx ⟨i, hi⟩).addr = i := Nat.zero_add i
  rw [step_wr8 (.rx ⟨i, hi⟩) rfl (haddr.symm ▸ hp), writeElem, setWidth_setWidth_word v (by decide)]

theorem State.rxWrite_rxWrite {s : State} (h : s.mem.wf = true) (i : Nat) (v : Byte) :
    (s.rxWrite i v).rxWrite i v = s.rxWrite i v := by
  simp only [State.rxWrite, Memory.write_write_same h]

/-- Settles O19: the second write stores the value that the first one left. -/
theorem registerWritesAreIdempotent : Obligations.RegisterWritesAreIdempotent := by
  intro s op rest hwf hop hp
  rcases hop with ⟨i, v, hi, rfl⟩ | ⟨v, hv, rfl⟩ | ⟨v, rfl⟩ | ⟨v, rfl⟩ | ⟨c, v, rfl⟩
  · refine ⟨_, step_wr8_rx hi hp, ?_⟩
    rw [step_wr8_rx hi rfl]
    exact congrArg _ (State.rxWrite_rxWrite (s := { s with pending := rest }) hwf i v)
  · exact ⟨_, (chipCountWriteStoresOrFaults s v _ hp).1 hv, (chipCountWriteStoresOrFaults _ v rest rfl).1 hv⟩
  · exact ⟨_, (configRegisterWritesStoreTheValue s _).1 v hp, (configRegisterWritesStoreTheValue _ rest).1 v rfl⟩
  · exact ⟨_, (configRegisterWritesStoreTheValue s _).2.1 v hp, (configRegisterWritesStoreTheValue _ rest).2.1 v rfl⟩
  · refine ⟨_, (configRegisterWritesStoreTheValue s _).2.2 c v hp, ?_⟩
    rw [(configRegisterWritesStoreTheValue _ rest).2.2 c v rfl, Vector.set_set]

/-! ### Byte order (R11, R66, R160) -/

/-- A 16-bit word made of two bytes, as a number. -/
theorem toNat_append_bytes (hi lo : Byte) : (hi ++ lo).toNat = 256 * hi.toNat + lo.toNat := by
  rw [BitVec.toNat_append, ← Nat.shiftLeft_add_eq_or_of_lt lo.isLt, Nat.shiftLeft_eq]
  omega

/-- Settles O36: the two orders append the same two bytes either way round. -/
theorem replyWordsHaveTheirByteOrder : Obligations.ReplyWordsHaveTheirByteOrder := by
  refine fun s a c => ⟨?_, toNat_append_bytes _ _, fun h => if_pos h, fun h => if_neg (Bool.eq_false_iff.mp h)⟩
  rw [State.le16, toNat_append_bytes, Nat.add_comm]

end Sys2Proof.Machine
end

section
/-! PROOFS of the statements of 30_encoding.md, first the rules they use: what a field of a word reads, and the operands of an
instruction in its word. -/

namespace Sys2Proof

/-! ### Fields (R81) -/

/-- The word that holds `v` in the field whose lowest bit is bit `lo`, and 0 elsewhere. -/
def place {n : Nat} (lo : Nat) (v : BitVec n) : Word := v.setWidth 32 <<< lo

/-- A field reads what was placed in it. -/
@[simp] theorem extractLsb'_place_same {n lo : Nat} (h : lo + n ≤ 32) (v : BitVec n) :
    (place lo v).extractLsb' lo n = v := by
  apply BitVec.eq_of_getLsbD_eq
  intro j hj
  have hbit : lo + j < 32 := by omega
  simp [place, hj, hbit]

/-- A field reads 0 of what was placed beside it. -/
@[simp] theorem extractLsb'_place_other {n n' lo lo' : Nat} (h : lo + n ≤ lo' ∨ lo' + n' ≤ lo) (v : BitVec n') :
    (place lo' v).extractLsb' lo n = 0 := by
  apply BitVec.eq_of_getLsbD_eq
  intro j hj
  have hbeside : lo' ≤ lo + j → v.getLsbD (lo + j - lo') = false := fun _ => BitVec.getLsbD_of_ge v _ (by omega)
  simpa [place, hj] using fun _ hle _ => hbeside hle

/-- A field of a word, put back in its place, is the word under the field's mask. -/
theorem place_extractLsb' (w : Word) (lo n : Nat) :
    place lo (w.extractLsb' lo n) = w &&& place lo (BitVec.allOnes n) := by
  apply BitVec.eq_of_getLsbD_eq
  intro j hj
  by_cases hlo : lo ≤ j
  · have hbit : lo + (j - lo) = j := by omega
    simp [place, hj, hbit, Bool.and_comm, Bool.and_assoc]
  · have hbelow : j < lo := by omega
    simp [place, hbelow]

/-- Bit `BUF` of a buffer (R81). -/
def bufBit : Buf → BitVec 1
  | .rx => 0
  | .tx => 1

theorem bufBit_bufField (w : Word) : bufBit (bufField w) = w.extractLsb' 15 1 := by
  have hbit : w.extractLsb' 15 1 = BitVec.ofBool (w.getLsbD 15) := BitVec.eq_of_getLsbD_eq (by simp)
  rw [hbit, bufField]
  cases w.getLsbD 15 <;> rfl

theorem bufField_of_extractLsb' {w : Word} {buf : Buf} (h : w.extractLsb' 15 1 = bufBit buf) : bufField w = buf := by
  have hbit : w.getLsbD 15 = (bufBit buf).getLsbD 0 := by simp [← h]
  rw [bufField, hbit]
  cases buf <;> rfl

/-! ### The operands in the word of an instruction (R82, R88) -/

theorem encode_crc8 (buf : Buf) (off len : Nat) :
    encode (.crc8 buf off len) =
      place 28 1#4 ||| place 15 (bufBit buf) ||| place 8 (BitVec.ofNat 7 off) ||| place 0 (BitVec.ofNat 7 len) := by
  cases buf <;> simp only [place, BitVec.shiftLeft_zero] <;> rfl

theorem encode_crc14 (buf : Buf) (off len nbits : Nat) :
    encode (.crc14 buf off len nbits) =
      place 28 2#4 ||| place 16 (BitVec.ofNat 3 nbits) ||| place 15 (bufBit buf) ||| place 8 (BitVec.ofNat 7 off) |||
        place 0 (BitVec.ofNat 7 len) := by
  cases buf <;> simp only [place, BitVec.shiftLeft_zero] <;> rfl

/-- The instruction with its operands read from the fields of a word (R82). -/
def Instr.withOperandsOf (w : Word) : Instr → Instr
  | .crc8 _ _ _ => .crc8 (bufField w) (offField w) (lenField w)
  | .crc14 _ _ _ _ => .crc14 (bufField w) (offField w) (lenField w) (nbitsField w)
  | i => i

/-- A field of 7 or 3 bits holds only values that fit (R88). -/
theorem wellFormed_withOperandsOf (w : Word) (i : Instr) : (i.withOperandsOf w).wellFormed = true := by
  have hoff : offField w < 128 := (w.extractLsb' 8 7).isLt
  have hlen : lenField w < 128 := (w.extractLsb' 0 7).isLt
  have hnbits : nbitsField w < 8 := (w.extractLsb' 16 3).isLt
  cases i <;> simp [Instr.withOperandsOf, Instr.wellFormed, offFits, lenFits, nbitsFits, hoff, hlen, hnbits]

/-- The operands of a well-formed instruction are read back from its word. -/
theorem withOperandsOf_encode {i : Instr} (h : i.wellFormed = true) : i.withOperandsOf (encode i) = i := by
  cases i with
  | crc8 buf off len =>
    simp only [Instr.wellFormed, offFits, lenFits, Bool.and_eq_true, decide_eq_true_eq] at h
    obtain ⟨hoff, hlen⟩ := h
    have hbuf : bufField (encode (.crc8 buf off len)) = buf :=
      bufField_of_extractLsb' (by simp [encode_crc8, BitVec.extractLsb'_or])
    rw [Instr.withOperandsOf, hbuf]
    simp [offField, lenField, encode_crc8, BitVec.extractLsb'_or, Nat.mod_eq_of_lt, hoff, hlen]
  | crc14 buf off len nbits =>
    simp only [Instr.wellFormed, offFits, lenFits, nbitsFits, Bool.and_eq_true, decide_eq_true_eq] at h
    obtain ⟨⟨hoff, hlen⟩, hnbits⟩ := h
    have hbuf : bufField (encode (.crc14 buf off len nbits)) = buf :=
      bufField_of_extractLsb' (by simp [encode_crc14, BitVec.extractLsb'_or])
    rw [Instr.withOperandsOf, hbuf]
    simp [offField, lenField, nbitsField, encode_crc14, BitVec.extractLsb'_or, Nat.mod_eq_of_lt, hoff, hlen, hnbits]
  | _ => rfl

/-- The word of every instruction lies on the instruction's row (R85, R88). -/
theorem encode_onItsRow (i : Instr) : encode i &&& (Laws.printedRow i).1 = (Laws.printedRow i).2 := by
  cases i with
  | crc8 buf off len => exact Laws.OnItsRow.crc8 buf off len
  | crc14 buf off len nbits => exact Laws.OnItsRow.crc14 buf off len nbits
  | _ => rfl

/-- A word on an instruction's row is the word of that instruction with the word's operands: the row's mask and the
operand fields together cover every bit (R81, R85). -/
theorem encode_withOperandsOf {i : Instr} {w : Word} (h : w &&& (Laws.printedRow i).1 = (Laws.printedRow i).2) :
    encode (i.withOperandsOf w) = w := by
  cases i with
  | crc8 buf off len =>
    have hop : place 28 1#4 = w &&& 0xFFFF0080 := h.symm
    simp only [Instr.withOperandsOf, encode_crc8, bufBit_bufField, offField, lenField, BitVec.ofNat_toNat,
      BitVec.setWidth_eq, hop, place_extractLsb', ← BitVec.and_or_distrib_left]
    exact BitVec.and_allOnes
  | crc14 buf off len nbits =>
    have hop : place 28 2#4 = w &&& 0xFFF80080 := h.symm
    simp only [Instr.withOperandsOf, encode_crc14, bufBit_bufField, offField, lenField, nbitsField, BitVec.ofNat_toNat,
      BitVec.setWidth_eq, hop, place_extractLsb', ← BitVec.and_or_distrib_left]
    exact BitVec.and_allOnes
  | _ => exact h.symm.trans BitVec.and_allOnes

end Sys2Proof
end

section
/-! PROOFS of the statements of 30_encoding.md: no word matches two rows, so that decoding is being on an instruction's row
with that instruction's operands; and what follows for the encoder, for reserved words and for assembled commands. -/

namespace Sys2Proof.Machine

/-! ### The rows exclude each other (R85) -/

theorem printedRows_eq_opcodeTable : printedRows = opcodeTable.map fun r => (r.mask, r.pattern) := rfl

theorem hits_iff {r : OpcodeRow} {w : Word} : r.hits w = true ↔ w &&& r.mask = r.pattern := beq_iff_eq

/-- Rows of masks `m`, `m'` and matches `p`, `p'` that fix a common bit differently share no word. -/
theorem not_on_both_rows {m p m' p' : Word} (h : p &&& m' ≠ p' &&& m) (w : Word) : ¬(w &&& m = p ∧ w &&& m' = p') := by
  rintro ⟨rfl, rfl⟩
  exact h (by ac_rfl)

/-- No word matches two rows (R85): any two rows fix a common bit differently. -/
theorem printedRows_exclusive (w : Word) : printedRows.Pairwise fun r r' => ¬(w &&& r.1 = r.2 ∧ w &&& r'.1 = r'.2) := by
  have hdiffer : printedRows.Pairwise fun r r' => r.2 &&& r'.1 ≠ r'.2 &&& r.1 := by decide
  exact hdiffer.imp fun h => not_on_both_rows h w

theorem eq_of_hits {r r' : OpcodeRow} {w : Word} (hr : r ∈ opcodeTable) (hr' : r' ∈ opcodeTable) (h : r.hits w = true)
    (h' : r'.hits w = true) : r = r' := by
  have hex := printedRows_exclusive w
  rw [printedRows_eq_opcodeTable, List.pairwise_map] at hex
  have hsymm : Std.Symm fun r r' : OpcodeRow => ¬(w &&& r.mask = r.pattern ∧ w &&& r'.mask = r'.pattern) :=
    ⟨fun _ _ hx hy => hx hy.symm⟩
  by_contra hne
  exact hex.forall hr hr' hne ⟨hits_iff.1 h, hits_iff.1 h'⟩

/-! ### What decoding is (R92) -/

/-- A word that matches a row is the command the row builds: no row before it takes the word. -/
theorem decode_of_hits {r : OpcodeRow} {w : Word} (hr : r ∈ opcodeTable) (h : r.hits w = true) :
    decode w = .ok (r.build w) := by
  unfold decode
  split
  · rename_i r' hr'
    have hhit : r'.hits w = true := List.find?_some (p := fun r : OpcodeRow => r.hits w) hr'
    rw [eq_of_hits hr (List.mem_of_find?_eq_some hr') h hhit]
  · rename_i hnone
    exact absurd h (List.find?_eq_none.1 hnone r hr)

theorem matchesNoRow_iff {w : Word} : matchesNoRow w ↔ ∀ r ∈ opcodeTable, ¬r.hits w = true := by
  rw [matchesNoRow, printedRows_eq_opcodeTable, List.forall_mem_map]
  simp only [hits_iff, ne_eq]

/-- A word is illegal exactly when it is on no row (R86). -/
theorem decode_error_iff (w : Word) : (∃ x, decode w = .error x) ↔ matchesNoRow w := by
  rw [matchesNoRow_iff]
  constructor
  · rintro ⟨x, hx⟩ r hr hhit
    rw [decode_of_hits hr hhit] at hx
    cases hx
  · intro hnone
    cases hd : decode w with
    | error x => exact ⟨x, rfl⟩
    | ok i =>
      obtain ⟨r, hr, hhit, -⟩ := exists_row_of_decode hd
      exact absurd hhit (hnone r hr)

/-- What a row of the table builds has that row, and takes its operands from the word. -/
theorem build_of_mem {r : OpcodeRow} (hr : r ∈ opcodeTable) (w : Word) :
    Laws.printedRow (r.build w) = (r.mask, r.pattern) ∧ (r.build w).withOperandsOf w = r.build w := by
  revert r
  simp [opcodeTable, checksumRows, decodeRows, encodeRows, Laws.printedRow, Instr.withOperandsOf]

/-- Every instruction has its row in the table, which builds that instruction with the word's operands. -/
theorem exists_row_of_instr (i : Instr) (w : Word) :
    ∃ r ∈ opcodeTable, (r.mask, r.pattern) = Laws.printedRow i ∧ r.build w = i.withOperandsOf w := by
  cases i <;> simp [opcodeTable, checksumRows, decodeRows, encodeRows, Laws.printedRow, Instr.withOperandsOf]

/-- What decoding is: the word lies on the instruction's row, and the instruction's operands are the word's fields. -/
theorem decode_eq_ok_iff {w : Word} {i : Instr} :
    decode w = .ok i ↔ w &&& (Laws.printedRow i).1 = (Laws.printedRow i).2 ∧ i.withOperandsOf w = i := by
  constructor
  · intro h
    obtain ⟨r, hr, hhit, rfl⟩ := exists_row_of_decode h
    obtain ⟨hrow, hops⟩ := build_of_mem hr w
    rw [hrow]
    exact ⟨hits_iff.1 hhit, hops⟩
  · rintro ⟨hw, hops⟩
    obtain ⟨r, hr, hrow, hbuild⟩ := exists_row_of_instr i w
    rw [← hrow] at hw
    rw [decode_of_hits hr (hits_iff.2 hw), hbuild, hops]

/-- A command without operands is exactly the words of its row (R85). -/
theorem decode_eq_ok_iff_row {w : Word} {i : Instr} (hi : i.withOperandsOf w = i) :
    decode w = .ok i ↔ w &&& (Laws.printedRow i).1 = (Laws.printedRow i).2 :=
  decode_eq_ok_iff.trans (and_iff_left hi)

/-- Settles O1: the word lies on the instruction's row, and the operands are read back from its fields. -/
theorem everyWellFormedInstrDecodesFromItsWord : Obligations.EveryWellFormedInstrDecodesFromItsWord := fun i hi =>
  decode_eq_ok_iff.2 ⟨encode_onItsRow i, withOperandsOf_encode hi⟩

/-- Settles O2: the row and the operand fields together determine the word, and a field's value fits the field. -/
theorem everyDecodedWordIsItsInstrsWord : Obligations.EveryDecodedWordIsItsInstrsWord := by
  intro w i h
  obtain ⟨hrow, hops⟩ := decode_eq_ok_iff.1 h
  rw [← hops]
  exact ⟨wellFormed_withOperandsOf w i, encode_withOperandsOf hrow⟩

/-- Settles O3: a checksum command is on its row with the word's fields as operands, every other command is its row alone. -/
theorem wordIsACommandExactlyOnItsRow : Obligations.WordIsACommandExactlyOnItsRow := by
  intro w
  refine ⟨?crc8, ?crc14, ?_, ?_, ?_, ?_, ?_, ?_, ?_, ?_, ?_, ?_, decode_error_iff w, printedRows_exclusive w⟩
  case crc8 =>
    constructor
    · rintro ⟨buf, off, len, h⟩
      exact (decode_eq_ok_iff.1 h).1
    · exact fun h => ⟨bufField w, offField w, lenField w, decode_eq_ok_iff.2 ⟨h, rfl⟩⟩
  case crc14 =>
    constructor
    · rintro ⟨buf, off, len, n, h⟩
      exact (decode_eq_ok_iff.1 h).1
    · exact fun h => ⟨bufField w, offField w, lenField w, nbitsField w, decode_eq_ok_iff.2 ⟨h, rfl⟩⟩
  all_goals exact decode_eq_ok_iff_row rfl

/-! ### Words on no row (R86) -/

/-- With `ERR = 0` a write to `CMD` of a word on no row stores the word and raises ILLEGAL_CMD (R23, R212). -/
theorem writeCmd_of_matchesNoRow {w : Word} {s : State} (herr : s.status.err = false) (hw : matchesNoRow w) :
    writeCmd w s = .next { s with cmd := w, status := ⟨true, .illegalCmd, s.status.phase⟩ } := by
  obtain ⟨x, hx⟩ := (decode_error_iff w).2 hw
  simp [writeCmd, execute, herr, hx, State.raiseFault]

/-- Every row fixes the eight bits of `OP` and `SUB` (R85). -/
theorem ushiftRight_of_row {w : Word} {r : Word × Word} (hr : r ∈ printedRows) (h : w &&& r.1 = r.2) :
    w >>> 24 = r.2 >>> 24 := by
  have hfixed : ∀ r ∈ printedRows, r.1 >>> 24 = 0xFF := by simp [printedRows]
  have hbyte : w >>> 24 &&& (0xFF : Word) = w >>> 24 := by
    apply BitVec.eq_of_getLsbD_eq
    intro j hj
    interval_cases j <;> simp
  rw [← h, BitVec.ushiftRight_and_distrib, hfixed r hr, hbyte]

theorem op_sub_of_row {w : Word} {r : Word × Word} (hr : r ∈ printedRows) (h : w &&& r.1 = r.2) :
    opOf w = opOf r.2 ∧ subOf w = subOf r.2 := by
  have htop := ushiftRight_of_row hr h
  have hop : ∀ v : Word, opOf v = (v >>> 24 >>> 4).toNat := fun v => by rw [← BitVec.shiftRight_add]; rfl
  exact ⟨by rw [hop, hop, htop], by rw [subOf, subOf, htop]⟩

/-- A word whose `OP` and `SUB` are those of no row is on no row. -/
theorem matchesNoRow_of_op_sub {w : Word} (h : ∀ r ∈ printedRows, ¬(opOf w = opOf r.2 ∧ subOf w = subOf r.2)) :
    matchesNoRow w :=
  fun r hr hw => h r hr (op_sub_of_row hr hw)

/-- A word with a bit of `z` set is on no row, where every row of the word's `OP` fixes the bits of `z` at 0. -/
theorem matchesNoRow_of_fixedZero {w z : Word} {op : Nat}
    (hz : ∀ r ∈ printedRows, opOf r.2 = op → r.1 &&& z = z ∧ r.2 &&& z = 0) (h : opOf w = op ∧ w &&& z ≠ 0) :
    matchesNoRow w := by
  intro r hr hw
  obtain ⟨hop, hne⟩ := h
  obtain ⟨hmask, hzero⟩ := hz r hr ((op_sub_of_row hr hw).1.symm.trans hop)
  exact hne (by rw [← hzero, ← hw, BitVec.and_assoc, hmask])

/-- The `OP` and `SUB` values that have a row (R83, R84). -/
theorem op_sub_of_mem {r : Word × Word} (hr : r ∈ printedRows) :
    1 ≤ opOf r.2 ∧ opOf r.2 ≤ 4 ∧ (opOf r.2 = 3 → subOf r.2 ≤ 8) := by
  revert r
  simp [printedRows, opOf, subOf]

/-- Settles O5: no row has a reserved OP or SUB, and the rows of an OP fix its fixed-zero bits at 0. -/
theorem reservedWordsRaiseIllegalCmd : Obligations.ReservedWordsRaiseIllegalCmd := by
  intro w
  refine ⟨fun s rest hp herr hw => ?_, fun h => matchesNoRow_of_op_sub fun r hr => ?_,
    fun h => matchesNoRow_of_op_sub fun r hr => ?_, matchesNoRow_of_fixedZero ?_, matchesNoRow_of_fixedZero ?_,
    matchesNoRow_of_fixedZero ?_, matchesNoRow_of_fixedZero ?_⟩
  · exact (step_of_cons hp).trans (writeCmd_of_matchesNoRow herr hw)
  · have hrow := op_sub_of_mem hr
    omega
  · have hrow := op_sub_of_mem hr
    omega
  all_goals simp [printedRows, opOf]

/-! ### Assembled commands (R88, R89) -/

theorem assemble_of_wellFormed {i : Instr} (h : i.wellFormed = true) :
    assemble (.command i) = some (.wr32 cmdAddr (encode i)) := if_pos h

theorem assemble_of_not_wellFormed {i : Instr} (h : i.wellFormed = false) : assemble (.command i) = none :=
  if_neg (Bool.eq_false_iff.1 h)

/-- Settles O59: an accepted line is the write of a well-formed instruction's word, which decodes to that instruction. -/
theorem assembledCommandRunsItsInstruction : Obligations.AssembledCommandRunsItsInstruction := by
  refine ⟨fun i s op rest hop hp herr => ?_, fun i => assemble_of_wellFormed, fun i => assemble_of_not_wellFormed⟩
  cases hi : i.wellFormed with
  | false =>
    rw [assemble_of_not_wellFormed hi] at hop
    cases hop
  | true =>
    rw [assemble_of_wellFormed hi] at hop
    cases hop
    exact stepRunsTheDecodedCommand s (encode i) rest i hp herr (everyWellFormedInstrDecodesFromItsWord i hi)

end Sys2Proof.Machine
end

section
/-! PROOFS of the statements of 40_crc8.md, first the rules they use: which bytes a byte range reads, and what a checksum
command does on a range inside its buffer and on one past the end. -/

namespace Sys2Proof.Machine

/-! ### Byte ranges (R100, R126) -/

theorem bufSize_eq_printedSize (buf : Buf) : bufSize buf = printedSize buf := by
  cases buf <;> rfl

/-- A range reads no byte below `OFF` and none from `OFF + LEN` on. -/
theorem rangeBytes_congr {s s' : State} {buf : Buf} {off len : Nat}
    (h : ∀ i, off ≤ i → i < off + len → s'.bufByte buf i = s.bufByte buf i) :
    rangeBytes s' buf off len = rangeBytes s buf off len :=
  List.map_congr_left fun i hi => h (off + i) (Nat.le_add_right off i) (Nat.add_lt_add_left (List.mem_range.mp hi) off)

/-- The residual byte is `B[OFF+LEN]`, or no byte of the buffer when no bit of it is folded in. -/
theorem State.residByte_congr {s s' : State} {buf : Buf} {off len n : Nat}
    (h : 0 < n → s'.bufByte buf (off + len) = s.bufByte buf (off + len)) :
    s'.residByte buf off len n = s.residByte buf off len n :=
  ite_congr rfl h fun _ => rfl

/-! ### The checksum commands (R100, R126) -/

theorem exec_crc8_of_le {buf : Buf} {off len : Nat} (h : off + len ≤ printedSize buf) (s : State) :
    exec (.crc8 buf off len) s = .next { s with crc8Res := crc8 (rangeBytes s buf off len) } := by
  rw [← bufSize_eq_printedSize] at h
  exact if_neg (Nat.not_lt.mpr h)

theorem exec_crc8_of_gt {buf : Buf} {off len : Nat} (h : printedSize buf < off + len) (s : State) :
    exec (.crc8 buf off len) s = .next (s.raiseFault .range) := by
  rw [← bufSize_eq_printedSize] at h
  exact if_pos h

theorem exec_crc14_of_le {buf : Buf} {off len n : Nat} (h : off + len + (if 0 < n then 1 else 0) ≤ printedSize buf)
    (s : State) :
    exec (.crc14 buf off len n) s = .next { s with
      crc14Res := (crc14 s.crcSeed (rangeBytes s buf off len) n (s.residByte buf off len n)).setWidth 16 } := by
  rw [← bufSize_eq_printedSize] at h
  exact if_neg (Nat.not_lt.mpr h)

/-- Settles O35: the result is a function of the range's bytes, for CRC14 with the residual byte and the seed, and each of
these is the same in both states. -/
theorem checksumDependsOnItsRangeOnly : Obligations.ChecksumDependsOnItsRangeOnly := by
  refine ⟨fun s s' buf off len hle hbytes => ?_, fun s s' buf off len n hle hinit hbytes => ?_⟩
  · refine ⟨_, _, exec_crc8_of_le hle s, exec_crc8_of_le hle s', ?_⟩
    exact congrArg crc8 (rangeBytes_congr hbytes)
  · refine ⟨_, _, exec_crc14_of_le hle s, exec_crc14_of_le hle s', ?_⟩
    have hseed : s'.crcSeed = s.crcSeed := congrArg (BitVec.setWidth 14) hinit
    have hrange : rangeBytes s' buf off len = rangeBytes s buf off len :=
      rangeBytes_congr fun i hi hlt => hbytes i hi (Nat.lt_add_right _ hlt)
    have hresid : s'.residByte buf off len n = s.residByte buf off len n :=
      State.residByte_congr fun hn => hbytes (off + len) (Nat.le_add_right off len) (by rw [if_pos hn]; omega)
    simp only [hseed, hrange, hresid]

/-- Settles O24: the checksum is a left fold from the seed, and a fold takes the last byte last. -/
theorem crc8FollowsItsRecurrence : Obligations.Crc8FollowsItsRecurrence :=
  ⟨rfl, fun bytes b => List.foldl_concat _ _ b bytes⟩

/-- Settles O25, from the two cases of CRC8. -/
theorem crc8CommandWritesItsResult : Obligations.Crc8CommandWritesItsResult := by
  refine fun s buf off len => ⟨fun hle => exec_crc8_of_le hle s, fun hgt => ?_⟩
  rw [exec_crc8_of_gt hgt, State.raiseFault_eq_recordedStatus]

end Sys2Proof.Machine
end

section
/-! PROOFS of the statements of 41_crc14.md, first the rules they use: the two steps on numbers, payloads and byte ranges cut
in two, and CRC14 on a range past the end. -/

namespace Sys2Proof.Machine

/-! ### Masks to 14 and 8 bits, on numbers (R123, R124) -/

/-- A shifted accumulator is the shifted number masked to 14 bits. -/
theorem toNat_shiftLeft_crc (acc : Crc) (k : Nat) : (acc <<< k).toNat = acc.toNat <<< k &&& 0x3FFF := by
  rw [BitVec.toNat_shiftLeft, Nat.and_two_pow_sub_one_eq_mod _ 14]

/-- The polynomial has no bit above the mask, so it may be folded in before the mask or after it. -/
theorem toNat_shiftLeft_xor_crc14Poly (acc : Crc) :
    (acc <<< 1 ^^^ Config.crc14Poly).toNat = (acc.toNat <<< 1 ^^^ 0x025B) &&& 0x3FFF := by
  have hpoly : Config.crc14Poly.toNat = 0x025B &&& 0x3FFF := by decide
  rw [BitVec.toNat_xor, toNat_shiftLeft_crc, hpoly, ← Nat.and_xor_distrib_right]

/-- The index of the byte step: the top 8 bits of the accumulator against the byte, masked to 8 bits. -/
theorem byteStep_index (acc : Crc) (b : Byte) :
    (acc >>> 6).setWidth 8 ^^^ b = BitVec.ofNat 8 ((acc.toNat >>> 6 ^^^ b.toNat) &&& 0xFF) := by
  apply BitVec.eq_of_toNat_eq
  rw [Nat.and_two_pow_sub_one_eq_mod _ 8, BitVec.toNat_ofNat, Nat.mod_mod, Nat.xor_mod_two_pow,
    Nat.mod_eq_of_lt b.isLt, BitVec.toNat_xor, BitVec.toNat_setWidth, BitVec.toNat_ushiftRight]

/-- Settles O27: the two terms of the byte step, each as a number. -/
theorem byteStepFollowsItsFormula : Obligations.ByteStepFollowsItsFormula := by
  intro acc b
  rw [byteStep, BitVec.toNat_xor, toNat_shiftLeft_crc, byteStep_index]

/-- Settles O28: each branch of the bit step as a number; both branch on the accumulator's bit 13 against the bit. -/
theorem bitStepFollowsItsFormula : Obligations.BitStepFollowsItsFormula := by
  intro acc v
  rw [bitStep, apply_ite BitVec.toNat, toNat_shiftLeft_xor_crc14Poly, toNat_shiftLeft_crc]
  rfl

/-! ### The two phases of `crc14` (R120) -/

/-- The bit phase takes the most significant bit first: one more residual bit is folded in last. -/
theorem residBits_succ (r : Byte) (n : Nat) : residBits r (n + 1) = residBits r n ++ [r.getLsbD (7 - n)] := by
  rw [residBits, List.range_succ, List.map_append]
  rfl

/-- A payload may be checked in pieces: the checksum of the first piece, without residual bits, seeds the rest. -/
theorem crc14_append (init : Crc) (x y : List Byte) (n : Nat) (r r' : Byte) :
    crc14 init (x ++ y) n r = crc14 (crc14 init x 0 r') y n r :=
  congrArg ((residBits r n).foldl bitStep) List.foldl_append

/-- One residual bit more is one bit step more. -/
theorem crc14_succ (init : Crc) (x : List Byte) (n : Nat) (r : Byte) :
    crc14 init x (n + 1) r = bitStep (crc14 init x n r) (r.getLsbD (7 - n)) := by
  rw [crc14, residBits_succ, List.foldl_concat, crc14]

/-- Settles O26: no byte and no bit leave the seed, a last byte is one byte step more, a last bit one bit step more. -/
theorem crc14RunsBytePhaseThenBitPhase : Obligations.Crc14RunsBytePhaseThenBitPhase :=
  ⟨fun _ _ => rfl, fun init x b r r' => crc14_append init x [b] 0 r r', fun init x n r _ => crc14_succ init x n r⟩

/-! ### Byte ranges in two pieces (R126) -/

/-- A range may be read in pieces. -/
theorem rangeBytes_add (s : State) (buf : Buf) (off len len' : Nat) :
    rangeBytes s buf off (len + len') = rangeBytes s buf off len ++ rangeBytes s buf (off + len) len' := by
  simp [rangeBytes, List.range_add, Nat.add_assoc]

/-- The residual byte after both pieces is the one after the second. -/
theorem State.residByte_add (s : State) (buf : Buf) (off len len' n : Nat) :
    s.residByte buf off (len + len') n = s.residByte buf (off + len) len' n := by
  rw [State.residByte, State.residByte, Nat.add_assoc]

/-! ### The command (R126) -/

theorem exec_crc14_of_gt {buf : Buf} {off len n : Nat} (h : printedSize buf < off + len + (if 0 < n then 1 else 0))
    (s : State) : exec (.crc14 buf off len n) s = .next (s.raiseFault .range) := by
  rw [← bufSize_eq_printedSize] at h
  exact if_pos h

/-- Settles O33, from the two cases of CRC14. -/
theorem crc14CommandWritesItsResult : Obligations.Crc14CommandWritesItsResult := by
  refine fun s buf off len n => ⟨fun hle => exec_crc14_of_le hle s, fun hgt => ?_⟩
  rw [exec_crc14_of_gt hgt, State.raiseFault_eq_recordedStatus]

/-- A result copied to `CRC14_INIT` seeds the next checksum with the accumulator it was: a result has no bit above bit 13. -/
theorem State.crcSeed_eq_of_crc14Init_eq {s : State} {c : Crc} (h : s.crc14Init = c.setWidth 16) : s.crcSeed = c := by
  rw [State.crcSeed, h, BitVec.setWidth_setWidth_of_le c (by decide), BitVec.setWidth_eq]

/-- Settles O34: the second command starts from the first one's accumulator and reads the bytes that follow, so the two are
the one fold cut in two. -/
theorem crc14CommandsChainThroughTheSeed : Obligations.Crc14CommandsChainThroughTheSeed := by
  intro s buf off len len' n hle
  have hfirst : off + len + (if 0 < 0 then 1 else 0) ≤ printedSize buf := by
    rw [if_neg (Nat.lt_irrefl 0)]; omega
  have hboth : off + (len + len') + (if 0 < n then 1 else 0) ≤ printedSize buf := by
    rw [← Nat.add_assoc]; exact hle
  refine ⟨_, _, _, exec_crc14_of_le hfirst s, exec_crc14_of_le hle _, exec_crc14_of_le hboth s, ?_⟩
  rw [rangeBytes_add, crc14_append _ _ _ _ _ (s.residByte buf off len 0), State.residByte_add]
  exact congrArg (fun seed => (crc14 seed _ n _).setWidth 16) (State.crcSeed_eq_of_crc14Init_eq rfl)

end Sys2Proof.Machine
end

section
/-! PROOFS of the statements of 42_codec_decode.md, first the rules they use: a decode's outcome in the words and stores that
its rule prints, and two decodes that read the same words. -/

namespace Sys2Proof.Machine

/-! ### The printed words of a decode command (R153 to R162) -/

/-- The words a decode command reads for a chip, each with the store element it goes to, as its rule prints them. -/
def replySamples (s : State) (i : Instr) (c : Chip) : Samples := (replyStores c i).zip (replyWords s c i)

/-- The model's words of the temperature-only response are the printed ones: every 4th 16-bit word from word 1 (R162). -/
theorem tempSamples_eq (s : State) : s.tempSamples = replySamples s .decTemp := by
  funext c
  have haddr : 2 * (Config.tempFirstW + Config.tempStrideW * c.val) = 8 * c + 2 := by
    simp only [Config.tempFirstW, Config.tempStrideW]
    omega
  simp only [State.tempSamples, haddr]
  rfl

/-- A decode command takes its printed words. -/
theorem decodeSamples_eq {i : Instr} (hi : i ∈ decodeCommands) (s : State) :
    decodeSamples s i = some (replySamples s i) := by
  cases i with
  | crc8 => simp [decodeCommands] at hi
  | crc14 => simp [decodeCommands] at hi
  | encCfg => simp [decodeCommands] at hi
  | decTemp => exact congrArg some (tempSamples_eq s)
  | _ => rfl

theorem exec_decode {i : Instr} (hi : i ∈ decodeCommands) (s : State) :
    exec i s = .next (decodeLoop (replySamples s i) s) :=
  exec_of_decodeSamples (decodeSamples_eq hi s)

theorem sorted_replySamples {i : Instr} (hi : i ∈ decodeCommands) (s : State) : Sorted (replySamples s i) :=
  sorted_decodeSamples (decodeSamples_eq hi s)

/-- Each printed word has one printed store, and each store one word. -/
theorem length_replyStores (s : State) (c : Chip) (i : Instr) :
    (replyStores c i).length = (replyWords s c i).length := by
  cases i <;> rfl

theorem map_fst_replySamples (s : State) (i : Instr) (c : Chip) :
    (replySamples s i c).map Prod.fst = replyStores c i :=
  List.map_fst_zip (length_replyStores s c i).le

theorem map_snd_replySamples (s : State) (i : Instr) (c : Chip) :
    (replySamples s i c).map Prod.snd = replyWords s c i :=
  List.map_snd_zip (length_replyStores s c i).ge

/-! ### What a decode leaves -/

/-- What a word leaves at its destination, chip and sentinel taken together. -/
theorem acceptedWord_eq (s : State) (c : Chip) (w old : Half) :
    acceptedWord s c w old = if c.val < s.chipCount.toNat then accepted w old else old := by
  rw [acceptedWord, accepted_eq, ite_and, ite_not]

/-- A word's destination after the loop, in the words of the statements. -/
theorem getStore_decodeLoop {samples : Chip → Samples} (hs : Sorted samples) {s : State} {c : Chip} {d : Store}
    {w : Half} (h : (d, w) ∈ samples c) :
    (decodeLoop samples s).getStore d = acceptedWord s c w (s.getStore d) := by
  rw [getStore_decodeLoop_sample hs h, acceptedWord_eq]

theorem getStore_decode {i : Instr} (hi : i ∈ decodeCommands) {s : State} {c : Chip} {d : Store} {w : Half}
    (h : (d, w) ∈ replySamples s i c) :
    (decodeLoop (replySamples s i) s).getStore d = acceptedWord s c w (s.getStore d) :=
  getStore_decodeLoop (sorted_replySamples hi s) h

/-- A store element that the command's rule does not print keeps its value. -/
theorem getStore_decode_of_not_mem {i : Instr} {s : State} {d : Store} (h : ∀ c, d ∉ replyStores c i) :
    (decodeLoop (replySamples s i) s).getStore d = s.getStore d :=
  getStore_decodeLoop_of_not_mem fun c _ => (map_fst_replySamples s i c).symm ▸ h c

/-- Whatever the words are, a decode leaves at a store element what was there or what one word makes of it (R163). -/
theorem getStore_decodeLoop_cases {samples : Chip → Samples} (hs : Sorted samples) (s : State) (d : Store) :
    (decodeLoop samples s).getStore d = s.getStore d ∨
      ∃ w, (decodeLoop samples s).getStore d = accepted w (s.getStore d) := by
  by_cases h : ∃ c : Chip, c.val < s.chipCount.toNat ∧ d ∈ (samples c).map Prod.fst
  · obtain ⟨c, hc, hd⟩ := h
    obtain ⟨⟨d, w⟩, hp, rfl⟩ := List.mem_map.mp hd
    exact .inr ⟨w, getStore_decodeLoop_of_mem hs hc hp⟩
  · exact .inl (getStore_decodeLoop_of_not_mem fun c hc hd => h ⟨c, hc, hd⟩)

theorem OnlyStores.symm {s t : State} (h : OnlyStores s t) : OnlyStores t s := by
  unfold OnlyStores at *
  rw [h]

/-- A state is what a decode leaves when it has the decode's stores and `VALIDMAP` and is otherwise the state before. -/
theorem decodeLoop_eq_of_getStore {samples : Chip → Samples} {s u : State}
    (hu : OnlyStores { s with validMap := (decodeLoop samples s).validMap } u)
    (hd : ∀ d, (decodeLoop samples s).getStore d = u.getStore d) : decodeLoop samples s = u :=
  State.ext_of_stores hd (hu.symm.trans (OnlyStores.decodeLoop samples s))

/-! ### A reply of sentinels -/

theorem acceptAll_of_sentinels {l : Samples} (h : ∀ p ∈ l, p.2 = Config.sentinel) (s : State) :
    acceptAll l s = (s, false) := by
  induction l with
  | nil => rfl
  | cons p rest ih =>
    obtain ⟨d, w⟩ := p
    obtain ⟨rfl, hrest⟩ : w = Config.sentinel ∧ ∀ p ∈ rest, p.2 = Config.sentinel := List.forall_mem_cons.mp h
    rw [acceptAll_cons, State.accept_of_sentinel, ih hrest]
    simp

theorem foldl_decodeChip_of_sentinels {samples : Chip → Samples} {l : List Chip}
    (h : ∀ c ∈ l, ∀ p ∈ samples c, p.2 = Config.sentinel) (acc : State × Byte) :
    l.foldl (decodeChip samples) acc = acc := by
  induction l with
  | nil => rfl
  | cons c rest ih =>
    obtain ⟨hc, hrest⟩ := List.forall_mem_cons.mp h
    have hturn : decodeChip samples acc c = acc := by
      rw [decodeChip, acceptAll_of_sentinels hc]
      rfl
    rw [List.foldl_cons, hturn, ih hrest]

/-- With nothing but sentinels for the active chips, the loop clears `VALIDMAP` and that is all (R152, R165). -/
theorem decodeLoop_of_sentinels {samples : Chip → Samples} {s : State}
    (h : ∀ c : Chip, c.val < s.chipCount.toNat → ∀ p ∈ samples c, p.2 = Config.sentinel) :
    decodeLoop samples s = { s with validMap := 0 } := by
  rw [decodeLoop, foldl_decodeChip_of_sentinels fun c hc => h c ((mem_activeChips s c).mp hc)]

/-! ### Two memories that hold the same words -/

/-- Accepting a word neither reads the byte memory nor writes it. -/
theorem State.accept_withMem (s : State) (m : Memory) (d : Store) (w : Half) :
    ({ s with mem := m } : State).accept d w = ({ (s.accept d w).1 with mem := m }, (s.accept d w).2) := by
  unfold State.accept
  split
  · rfl
  · cases d <;> rfl

theorem acceptAll_withMem (l : Samples) (s : State) (m : Memory) :
    acceptAll l { s with mem := m } = ({ (acceptAll l s).1 with mem := m }, (acceptAll l s).2) := by
  induction l generalizing s with
  | nil => rfl
  | cons p rest ih =>
    obtain ⟨d, w⟩ := p
    rw [acceptAll_cons, acceptAll_cons, State.accept_withMem, ih]

theorem foldl_decodeChip_withMem {samples samples' : Chip → Samples} {l : List Chip}
    (h : ∀ c ∈ l, samples' c = samples c) (s : State) (v : Byte) (m : Memory) :
    l.foldl (decodeChip samples') ({ s with mem := m }, v) =
      ({ (l.foldl (decodeChip samples) (s, v)).1 with mem := m }, (l.foldl (decodeChip samples) (s, v)).2) := by
  induction l generalizing s v with
  | nil => rfl
  | cons c rest ih =>
    obtain ⟨hc, hrest⟩ := List.forall_mem_cons.mp h
    have hturn : decodeChip samples' ({ s with mem := m }, v) c =
        ({ (decodeChip samples (s, v) c).1 with mem := m }, (decodeChip samples (s, v) c).2) := by
      simp only [decodeChip, hc, acceptAll_withMem]
    rw [List.foldl_cons, hturn, ih hrest, List.foldl_cons]

/-- The loop sees the byte memory only in the words of the active chips. -/
theorem decodeLoop_withMem {samples samples' : Chip → Samples} {s : State}
    (h : ∀ c : Chip, c.val < s.chipCount.toNat → samples' c = samples c) (m : Memory) :
    decodeLoop samples' { s with mem := m } = { decodeLoop samples s with mem := m } := by
  have hactive : ({ s with mem := m } : State).activeChips = s.activeChips := rfl
  rw [decodeLoop, hactive, foldl_decodeChip_withMem fun c hc => h c ((mem_activeChips s c).mp hc)]
  rfl

/-! ### The bytes a word is made of (R11, R151) -/

section SameBytes

variable {s : State} {m : Memory} {lo n : Nat}

theorem State.bufByte_rx_withMem {a : Nat} (h : m.read a = s.mem.read a) :
    ({ s with mem := m } : State).bufByte .rx a = s.bufByte .rx a := by
  simpa [State.bufByte, bufBase] using h

/-- A little-endian word inside a run of bytes that two memories share is the same in both. -/
theorem State.le16_withMem (h : ∀ j ∈ List.range' lo n, m.read j = s.mem.read j) (a : Nat)
    (ha : lo ≤ a ∧ a + 1 < lo + n) :
    ({ s with mem := m } : State).le16 a = s.le16 a := by
  rw [State.le16, State.le16, State.bufByte_rx_withMem (h a (List.mem_range'_1.mpr (by omega))),
    State.bufByte_rx_withMem (h (a + 1) (List.mem_range'_1.mpr (by omega)))]

/-- So is a big-endian one. -/
theorem State.be16_withMem (h : ∀ j ∈ List.range' lo n, m.read j = s.mem.read j) (a : Nat)
    (ha : lo ≤ a ∧ a + 1 < lo + n) :
    ({ s with mem := m } : State).be16 a = s.be16 a := by
  rw [State.be16, State.be16, State.bufByte_rx_withMem (h a (List.mem_range'_1.mpr (by omega))),
    State.bufByte_rx_withMem (h (a + 1) (List.mem_range'_1.mpr (by omega)))]

theorem cellWords_withMem {c : Chip} (h : ∀ j ∈ List.range' (9 * c + 1) 6, m.read j = s.mem.read j) :
    cellWords { s with mem := m } c = cellWords s c := by
  rw [cellWords, State.le16_withMem h (9 * c + 1) (by omega), State.le16_withMem h (9 * c + 3) (by omega),
    State.le16_withMem h (9 * c + 5) (by omega), cellWords]

/-- A chip's words are made of the printed bytes only. -/
theorem replyWords_withMem {i : Instr} {c : Chip} (h : ∀ j ∈ replyBytes c i, m.read j = s.mem.read j) :
    replyWords { s with mem := m } c i = replyWords s c i := by
  cases i with
  | decTv => simp only [replyWords, State.le16_withMem h (7 * c + 1) (by omega)]
  | decAux =>
    simp only [replyWords, State.le16_withMem h (9 * c + 1) (by omega),
      State.be16_withMem h (9 * c + 3) (by omega), State.le16_withMem h (9 * c + 3) (by omega),
      State.le16_withMem h (9 * c + 5) (by omega)]
  | decCfg =>
    simp only [replyWords, State.le16_withMem h (7 * c + 1) (by omega),
      State.le16_withMem h (7 * c + 3) (by omega)]
  | decTemp => simp only [replyWords, State.le16_withMem h (8 * c + 2) (by omega)]
  | crc8 => rfl
  | crc14 => rfl
  | encCfg => rfl
  | _ => exact cellWords_withMem h

end SameBytes

end Sys2Proof.Machine
end

section
/-! PROOFS of the statements of 42_codec_decode.md: no step leaves the sentinel in a store. -/

namespace Sys2Proof.Machine

/-- No word makes a sentinel of a value that is none (R163). -/
theorem accepted_ne_sentinel {old : Half} (h : old ≠ Config.sentinel) (w : Half) : accepted w old ≠ Config.sentinel := by
  unfold accepted
  split
  · exact h
  · assumption

theorem noSentinel_decodeLoop {samples : Chip → Samples} (hs : Sorted samples) {s : State} (h : s.noSentinel) :
    (decodeLoop samples s).noSentinel := by
  intro d
  rcases getStore_decodeLoop_cases hs s d with hd | ⟨w, hd⟩
  · exact hd ▸ h d
  · exact hd ▸ accepted_ne_sentinel (h d) w

/-- States with the same stores hold the sentinel alike. -/
theorem State.noSentinel_congr {s t : State} (hd : ∀ d, t.getStore d = s.getStore d) (h : s.noSentinel) : t.noSentinel :=
  fun d => hd d ▸ h d

theorem noSentinel_reset : State.reset.noSentinel := resetStateMeetsTheInvariants.2.1

theorem ExecEffect.noSentinel {s t : State} {i : Instr} (he : ExecEffect s i t) (h : s.noSentinel) : t.noSentinel := by
  cases he with
  | crc8Fault => exact State.noSentinel_congr (KeepsOutputs.raiseFault s .range).stores h
  | crc8Result => exact h
  | crc14Fault => exact State.noSentinel_congr (KeepsOutputs.raiseFault s .range).stores h
  | crc14Result => exact h
  | decoded hs => exact noSentinel_decodeLoop (sorted_decodeSamples hs) h
  | encoded => exact State.noSentinel_congr (OnlyMem.foldl_writeFrame _ _ s).getStore h

/-- Settles O54: a step keeps the stores, or is reset, or runs a command. -/
theorem storesNeverHoldTheSentinel : Obligations.StoresNeverHoldTheSentinel := by
  intro s t h hstep
  rcases step_outputs hstep with hkeeps | ⟨rest, -, rfl⟩ | ⟨w, rest, i, -, -, -, he⟩
  · exact State.noSentinel_congr hkeeps.stores h
  · exact noSentinel_reset
  · exact he.noSentinel h

end Sys2Proof.Machine
end

section
/-! PROOFS of the statements of 42_codec_decode.md: what each decode command writes, what it marks, and what it does not
see. -/

namespace Sys2Proof.Machine

/-! ### Every decode (R152, R163) -/

/-- Settles O37: the loop reaches each word's destination once. -/
theorem sentinelIsDiscardedPerWord : Obligations.SentinelIsDiscardedPerWord := by
  refine ⟨State.accept_of_sentinel, fun s d w hw => ?_, fun i s hi => ?_⟩
  · rw [State.accept_of_ne hw]
    refine ⟨rfl, ?_, fun d' hne => ?_⟩
    · rw [State.getStore_putStore, if_pos rfl]
    · rw [State.getStore_putStore, if_neg hne]
  · exact ⟨_, exec_decode hi s, fun c d w h => getStore_decode hi h⟩

/-- Settles O38: the loop marks an active chip when one of its samples is no sentinel, and its samples are its words. -/
theorem validMapMarksExactlyTheAcceptedChips : Obligations.ValidMapMarksExactlyTheAcceptedChips := by
  refine fun i s hi => ⟨_, exec_decode hi s, fun c => ?_⟩
  rw [getLsbD_validMap_decodeLoop, ← map_snd_replySamples]
  simp only [Bool.and_eq_true, decide_eq_true_eq, List.any_eq_true, List.mem_map, exists_exists_and_eq_and]
  rfl

/-! ### Each register type (R153 to R162) -/

/-- The five cell-voltage commands: the group each decodes, and the first slot of the group. -/
theorem exec_of_mem_cellGroups {p : Instr × Nat} (hp : p ∈ cellGroups) :
    ∃ g : Group, p.2 = 3 * g ∧ ∀ s, exec p.1 s = .next (decodeLoop (s.cellSamples g) s) := by
  simp only [cellGroups, List.mem_cons, List.not_mem_nil, or_false] at hp
  rcases hp with rfl | rfl | rfl | rfl | rfl
  · exact ⟨groupA, rfl, fun _ => rfl⟩
  · exact ⟨groupB, rfl, fun _ => rfl⟩
  · exact ⟨groupC, rfl, fun _ => rfl⟩
  · exact ⟨groupD, rfl, fun _ => rfl⟩
  · exact ⟨groupE, rfl, fun _ => rfl⟩

/-- A group's words go to its three slots only. -/
theorem mem_map_fst_cellSamples {s : State} {g : Group} {c : Chip} {d : Store}
    (h : d ∈ (s.cellSamples g c).map Prod.fst) :
    ∃ k : Slot, d = .cellRaw c k ∧ 3 * g.val ≤ k ∧ k < 3 * g.val + 3 := by
  simp only [State.cellSamples, List.map_map, List.mem_map] at h
  obtain ⟨k, -, rfl⟩ := h
  exact ⟨slotOf g k, rfl, Nat.le_add_right _ _, Nat.add_lt_add_left k.isLt _⟩

/-- Three slots in a row from `3g` are those of group `g`. -/
theorem exists_slotOf {g : Group} {k : Slot} (hk : 3 * g.val ≤ k.val ∧ k.val < 3 * g.val + 3) : ∃ j, slotOf g j = k :=
  ⟨⟨k - 3 * g, Nat.sub_lt_left_of_lt_add hk.1 hk.2⟩, Fin.ext (Nat.add_sub_cancel' hk.1)⟩

/-- A slot of a group after the group's decode: its word is the one at the slot's place in the group. -/
theorem getStore_decodeLoop_cellSamples {s : State} {g : Group} (c : Chip) {k : Slot}
    (hk : 3 * g.val ≤ k.val ∧ k.val < 3 * g.val + 3) :
    (decodeLoop (s.cellSamples g) s).getStore (.cellRaw c k) =
      acceptedWord s c (s.le16 (9 * c + 1 + 2 * (k.val - 3 * g.val))) (s.getStore (.cellRaw c k)) := by
  obtain ⟨j, rfl⟩ := exists_slotOf hk
  have hplace : (slotOf g j).val - 3 * g.val = j := Nat.add_sub_cancel_left _ _
  rw [hplace]
  exact getStore_decodeLoop (sorted_cellSamples s g) (mem_cellSamples j)

/-- Settles O39: a slot is in the command's group or no word goes to it; no word goes to another store. -/
theorem cellGroupsDecodeIntoTheirSlots : Obligations.CellGroupsDecodeIntoTheirSlots := by
  intro p s hp
  obtain ⟨g, hfirst, hexec⟩ := exec_of_mem_cellGroups hp
  rw [hfirst]
  have hkeep : ∀ d, (∀ (c : Chip) (k : Slot), d = .cellRaw c k → ¬(3 * g.val ≤ k.val ∧ k.val < 3 * g.val + 3)) →
      (decodeLoop (s.cellSamples g) s).getStore d = s.getStore d := by
    refine fun d hd => getStore_decodeLoop_of_not_mem fun c _ hmem => ?_
    obtain ⟨k, hk, hrange⟩ := mem_map_fst_cellSamples hmem
    exact hd c k hk hrange
  refine ⟨_, hexec s, decodeLoop_eq_of_getStore rfl fun d => ?_, fun c k => ?_⟩
  · cases d with
    | cellRaw c k => rfl
    | _ => exact hkeep _ fun _ _ h => nomatch h
  · split
    · rename_i hk
      exact getStore_decodeLoop_cellSamples c hk
    · rename_i hk
      exact hkeep (.cellRaw c k) fun _ _ h => (Store.cellRaw.inj h).2 ▸ hk

/-- Settles O40: the command prints one store for each chip. -/
theorem totalVoltageDecodesIntoItsStore : Obligations.TotalVoltageDecodesIntoItsStore := by
  have hi : Instr.decTv ∈ decodeCommands := by decide
  refine fun s => ⟨_, exec_decode hi s, decodeLoop_eq_of_getStore rfl fun d => ?_, fun c => ?_⟩
  · cases d with
    | tvRaw c => rfl
    | _ => exact getStore_decode_of_not_mem (by simp [replyStores])
  · exact getStore_decode hi (d := .tvRaw c) (.head _)

/-- Settles O41: the command prints three stores for each chip. -/
theorem auxiliaryDecodesIntoItsStores : Obligations.AuxiliaryDecodesIntoItsStores := by
  have hi : Instr.decAux ∈ decodeCommands := by decide
  refine fun s => ⟨_, exec_decode hi s, decodeLoop_eq_of_getStore rfl fun d => ?_, fun c => ⟨?_, ?_, ?_⟩⟩
  · cases d with
    | auxT1 c => rfl
    | aux5v c => rfl
    | auxT2 c => rfl
    | _ => exact getStore_decode_of_not_mem (by simp [replyStores])
  · exact getStore_decode hi (d := .auxT1 c) (.head _)
  · exact getStore_decode hi (d := .aux5v c) (.tail _ (.head _))
  · exact getStore_decode hi (d := .auxT2 c) (.tail _ (.tail _ (.head _)))

/-- Settles O42: the command prints two stores for each chip. -/
theorem configurationDecodesIntoItsStores : Obligations.ConfigurationDecodesIntoItsStores := by
  have hi : Instr.decCfg ∈ decodeCommands := by decide
  refine fun s => ⟨_, exec_decode hi s, decodeLoop_eq_of_getStore rfl fun d => ?_, fun c => ⟨?_, ?_⟩⟩
  · cases d with
    | cfgW0 c => rfl
    | cfgW1 c => rfl
    | _ => exact getStore_decode_of_not_mem (by simp [replyStores])
  · exact getStore_decode hi (d := .cfgW0 c) (.head _)
  · exact getStore_decode hi (d := .cfgW1 c) (.tail _ (.head _))

/-- Settles O43: the command prints one store for each chip, and word `1 + 4c` of `RX` starts at byte `8c + 2`. -/
theorem temperatureDecodesIntoItsStore : Obligations.TemperatureDecodesIntoItsStore := by
  have hi : Instr.decTemp ∈ decodeCommands := by decide
  refine fun s => ⟨_, exec_decode hi s, decodeLoop_eq_of_getStore rfl fun d => ?_, fun c => ?_⟩
  · cases d with
    | tempRaw c => rfl
    | _ => exact getStore_decode_of_not_mem (by simp [replyStores])
  · have haddr : 2 * (1 + 4 * c.val) = 8 * c + 2 := by omega
    rw [haddr]
    exact getStore_decode hi (d := .tempRaw c) (.head _)

/-! ### Replies that leave the stores as they were, and bytes no decode reads (R151, R164, R165) -/

/-- Settles O44: each sample holds one of the reply's words, all of which are sentinels. -/
theorem allSentinelReplyIsASilentMiss : Obligations.AllSentinelReplyIsASilentMiss := by
  intro i s hi h
  rw [exec_decode hi, decodeLoop_of_sentinels]
  intro c hc p hp
  refine h c hc p.2 ?_
  rw [← map_snd_replySamples]
  exact List.mem_map_of_mem hp

/-- Settles O45: the words of the active chips are the same in both memories, and the loop sees nothing else of them. -/
theorem unreadReplyBytesHaveNoEffect : Obligations.UnreadReplyBytesHaveNoEffect := by
  intro i s t m hi hbytes hexec
  have hsamples : ∀ c : Chip, c.val < s.chipCount.toNat →
      replySamples { s with mem := m } i c = replySamples s i c := fun c hc =>
    congrArg (List.zip (replyStores c i)) (replyWords_withMem (hbytes c hc))
  rw [exec_decode hi] at hexec
  injection hexec with hexec
  rw [exec_decode hi, decodeLoop_withMem hsamples, hexec]

end Sys2Proof.Machine
end

section
/-! PROOFS of the statements of 43_codec_encode.md, first the rules they use: the state that ENC.CFG leaves, the bytes of its
frames, the two patterns, and which accesses invert the phase. -/

namespace Sys2Proof.Machine

/-! ### The state after ENC.CFG (R190, R194) -/

/-- The state ENC.CFG leaves: the frames under the phase it found, then that phase inverted. -/
def State.encoded (s : State) : State :=
  (s.activeChips.foldl (writeFrame (phasePattern s.status.phase)) s).invertPhase

theorem exec_encCfg (s : State) : exec .encCfg s = .next s.encoded := rfl

theorem eq_encoded_of_exec {s t : State} (h : exec .encCfg s = .next t) : t = s.encoded := by
  rw [exec_encCfg] at h
  injection h with h
  exact h.symm

/-- Nothing but `mem` and the phase changes. -/
theorem State.encoded_frame (s : State) :
    s.encoded = { s with mem := s.encoded.mem, status := { s.status with phase := otherPhase s.status.phase } } :=
  congrArg State.invertPhase (OnlyMem.foldl_writeFrame (phasePattern s.status.phase) s.activeChips s)

@[simp] theorem State.encoded_chipCount (s : State) : s.encoded.chipCount = s.chipCount := by
  rw [s.encoded_frame]

@[simp] theorem State.encoded_balMask (s : State) : s.encoded.balMask = s.balMask := by
  rw [s.encoded_frame]

@[simp] theorem State.encoded_crcSeed (s : State) : s.encoded.crcSeed = s.crcSeed := by
  rw [s.encoded_frame]; rfl

@[simp] theorem State.encoded_phase (s : State) : s.encoded.status.phase = otherPhase s.status.phase := by
  rw [s.encoded_frame]

theorem State.wf_encoded {s : State} (h : s.mem.wf = true) : s.encoded.mem.wf = true :=
  wf_foldl_writeFrame h _ _

/-! ### The frames (R192, R193) -/

/-- Every byte of an active chip's frame. -/
theorem State.read_encoded {s : State} (h : s.mem.wf = true) {c : Chip} (hc : c.val < s.chipCount.toNat) {j : Nat}
    (hj : j < 6) :
    s.encoded.mem.read (0x080 + 6 * c + j) = frameByteOf (phasePattern s.status.phase) s.balMask[c] s.crcSeed j :=
  read_foldl_writeFrame h _ (nodup_activeChips s) ((mem_activeChips s c).mpr hc) hj

/-- The same byte, by its index in `TX`. -/
theorem State.bufByte_encoded {s : State} (h : s.mem.wf = true) {c : Chip} (hc : c.val < s.chipCount.toNat) {j : Nat}
    (hj : j < 6) :
    s.encoded.bufByte .tx (6 * c + j) = frameByteOf (phasePattern s.status.phase) s.balMask[c] s.crcSeed j := by
  rw [← State.read_encoded h hc hj, Nat.add_assoc]
  rfl

/-- A byte outside the frames of the active chips keeps its value. -/
theorem State.read_encoded_other {s : State} (h : s.mem.wf = true) {a : Nat}
    (ha : ∀ c : Chip, c.val < s.chipCount.toNat → ¬(0x080 + 6 * c.val ≤ a ∧ a < 0x080 + 6 * c.val + 6)) :
    s.encoded.mem.read a = s.mem.read a :=
  read_foldl_writeFrame_other h _ fun c hc => ha c ((mem_activeChips s c).mp hc)

/-- The balance bits of an active chip's frame. -/
theorem State.frameMask_encoded {s : State} (h : s.mem.wf = true) {c : Chip} (hc : c.val < s.chipCount.toNat) :
    s.encoded.frameMask c = s.balMask[c] &&& (phasePattern s.status.phase ++ phasePattern s.status.phase) :=
  frameMask_foldl_writeFrame h _ (nodup_activeChips s) ((mem_activeChips s c).mpr hc)

theorem phasePattern_eq_printedPattern (p : Phase) : phasePattern p = printedPattern p := by
  cases p <;> rfl

/-- The bytes of a frame are those R192 prints, in its order. -/
theorem frameByteOf_eq_printedFrame (p : Phase) (bal : Half) (seed : Crc) {j : Nat} (hj : j < 6) :
    some (frameByteOf (phasePattern p) bal seed j) = (printedFrame bal (printedPattern p) seed)[j]? := by
  rw [phasePattern_eq_printedPattern]
  match j, hj with
  | 0, _ => rfl
  | 1, _ => rfl
  | 2, _ => rfl
  | 3, _ => rfl
  | 4, _ => rfl
  | 5, _ => rfl

/-- The four bytes that the checksum covers stand in the frame as they were checked. -/
theorem State.rangeBytes_encoded {s : State} (h : s.mem.wf = true) {c : Chip} (hc : c.val < s.chipCount.toNat) :
    rangeBytes s.encoded .tx (6 * c) 4 = payloadOf (phasePattern s.status.phase) s.balMask[c] := by
  have hbytes : rangeBytes s.encoded .tx (6 * c) 4
      = (List.range 4).map (frameByteOf (phasePattern s.status.phase) s.balMask[c] s.crcSeed) :=
    List.map_congr_left fun j hj => State.bufByte_encoded h hc ((List.mem_range.mp hj).trans (by decide))
  rw [hbytes]
  rfl

/-- A word is its high byte before its low byte. -/
theorem high_append_low (w : Half) : (w >>> 8).setWidth 8 ++ w.setWidth 8 = w := by
  have hones : (BitVec.allOnes 8 ++ BitVec.allOnes 8 : Half) = BitVec.allOnes 16 := by decide
  have h := append_and_pattern w (BitVec.allOnes 8)
  rwa [BitVec.and_allOnes, BitVec.and_allOnes, hones, BitVec.and_allOnes] at h

/-- The last two bytes of a frame, high byte first, are its checksum word. -/
theorem State.crcBytes_encoded {s : State} (h : s.mem.wf = true) {c : Chip} (hc : c.val < s.chipCount.toNat) :
    s.encoded.bufByte .tx (6 * c + 5) ++ s.encoded.bufByte .tx (6 * c + 4)
      = crcWordOf (phasePattern s.status.phase) s.balMask[c] s.crcSeed := by
  rw [State.bufByte_encoded h hc (by omega), State.bufByte_encoded h hc (by omega)]
  exact high_append_low _

/-! ### The two patterns (R191) -/

theorem otherPhase_eq (p : Phase) : otherPhase p = if p = .even then .odd else .even := by
  cases p <;> rfl

/-- The pattern on both bytes of a mask. -/
theorem phasePattern_append_self (p : Phase) :
    (phasePattern p ++ phasePattern p : Half) = if p = .even then 0xAAAA else 0x5555 := by
  cases p <;> rfl

/-- The patterns of the two phases together pass every bit. -/
theorem phasePattern_or_otherPhase (p : Phase) :
    (phasePattern p ++ phasePattern p : Half) ||| (phasePattern (otherPhase p) ++ phasePattern (otherPhase p))
      = BitVec.allOnes 16 := by
  cases p <;> decide

/-- The patterns of the two phases have no bit in common. -/
theorem phasePattern_and_otherPhase (p : Phase) :
    (phasePattern p ++ phasePattern p : Half) &&& (phasePattern (otherPhase p) ++ phasePattern (otherPhase p)) = 0 := by
  cases p <;> decide

/-- Two masks that cover every bit and share none cut any mask in two. -/
theorem partition_of_masks {q r : Half} (hor : q ||| r = BitVec.allOnes 16) (hand : q &&& r = 0) (b : Half) :
    b &&& q ||| b &&& r = b ∧ (b &&& q) &&& (b &&& r) = 0 := by
  constructor
  · rw [← BitVec.and_or_distrib_left, hor, BitVec.and_allOnes]
  · calc (b &&& q) &&& (b &&& r) = (b &&& b) &&& (q &&& r) := by ac_rfl
      _ = 0 := by rw [hand]; exact BitVec.and_zero

/-! ### ENC.CFG by itself -/

/-- Settles O46, from the frame bytes and the frame of the command. -/
theorem encCfgWritesTheFramesAndInvertsThePhase : Obligations.EncCfgWritesTheFramesAndInvertsThePhase := by
  intro s hwf
  refine ⟨s.encoded, exec_encCfg s, ?_, fun c hc j hj => ?_, fun a ha => State.read_encoded_other hwf ha⟩
  · rw [← otherPhase_eq]
    exact s.encoded_frame
  · rw [State.read_encoded hwf hc hj]
    exact frameByteOf_eq_printedFrame _ _ _ hj

/-- Settles O47: the balance bits under the pattern, and the sixteen bits of each pattern. -/
theorem phaseSelectsThePatternOfEveryFrame : Obligations.PhaseSelectsThePatternOfEveryFrame := by
  refine ⟨fun s t hwf hexec c hc => ?_, by decide⟩
  rw [eq_encoded_of_exec hexec, State.frameMask_encoded hwf hc, phasePattern_append_self]

/-- Settles O48: whatever the mask, the pattern it is cut by has no two adjacent bits. -/
theorem encodedFramesHaveNoAdjacentCells : Obligations.EncodedFramesHaveNoAdjacentCells := by
  intro s t hwf hexec c hc
  rw [eq_encoded_of_exec hexec, State.noAdjacentCells, State.frameMask_encoded hwf hc]
  exact and_ushiftRight_one_of_pattern (phasePattern_nonadjacent _) _

/-- Settles O49: the second ENC.CFG finds the same masks and the other phase, whose pattern is the complement. -/
theorem twoPassesPartitionTheMask : Obligations.TwoPassesPartitionTheMask := by
  intro s t u hwf hst htu c hc
  obtain rfl := eq_encoded_of_exec hst
  obtain rfl := eq_encoded_of_exec htu
  have hc' : c.val < s.encoded.chipCount.toNat := by rwa [State.encoded_chipCount]
  have hfirst := State.frameMask_encoded hwf hc
  have hsecond := State.frameMask_encoded (State.wf_encoded hwf) hc'
  rw [State.encoded_balMask, State.encoded_phase] at hsecond
  rw [hfirst, hsecond]
  obtain ⟨hcover, hdisjoint⟩ := partition_of_masks (phasePattern_or_otherPhase s.status.phase)
    (phasePattern_and_otherPhase s.status.phase) s.balMask[c]
  refine ⟨hcover, hdisjoint, fun heven => ?_⟩
  rw [heven]
  exact ⟨rfl, rfl⟩

/-- Settles O50: the range is inside `TX`, holds the payload that was checked, and the seed is the same. -/
theorem frameChecksumRechecksInPlace : Obligations.FrameChecksumRechecksInPlace := by
  intro s t c hwf hc hexec
  obtain rfl := eq_encoded_of_exec hexec
  have hrange : 6 * c.val + 4 + (if 0 < 0 then 1 else 0) ≤ printedSize .tx := by
    have hchip : c.val < 8 := c.isLt
    simp only [printedSize, Nat.lt_irrefl, if_false]
    omega
  rw [exec_crc14_of_le hrange, State.rangeBytes_encoded hwf hc, State.encoded_crcSeed, State.crcBytes_encoded hwf hc]
  rfl

/-! ### Every other access (R194) -/

theorem phase_hostRead (n : Width) (a : Addr) (s : State) : (hostRead n a s).status.phase = s.status.phase := by
  rcases hostRead_cases n a s with ⟨e, -, hr⟩ | ⟨-, hr⟩ <;> rw [hr]
  exact s.raiseFault_phase .access

theorem PlainWrite.phase {s t : State} (h : PlainWrite s t) : t.status.phase = s.status.phase := by
  rcases h.status with hst | rfl | rfl
  · rw [hst]
  · exact s.raiseFault_phase .access
  · exact s.raiseFault_phase .chipCountValue

theorem ExecEffect.phase {s t : State} {i : Instr} (h : ExecEffect s i t) (hi : i ≠ .encCfg) :
    t.status.phase = s.status.phase := by
  cases h with
  | crc8Fault => exact s.raiseFault_phase .range
  | crc8Result => rfl
  | crc14Fault => exact s.raiseFault_phase .range
  | crc14Result => rfl
  | decoded => rw [OnlyStores.decodeLoop]
  | encoded => exact absurd rfl hi

/-- A write to `CMD` leaves the phase, unless it executes ENC.CFG. -/
theorem writeCmd_phase {w : Word} {s t : State} (h : writeCmd w s = .next t)
    (hne : ¬(w = 0x40000000 ∧ s.status.err = false)) : t.status.phase = s.status.phase := by
  rcases writeCmd_cases w s with ⟨-, hx⟩ | ⟨herr, i, hd, hx⟩ | ⟨-, r, -, hx⟩ <;> rw [hx] at h
  · injection h with h
    rw [h]
  · refine (execEffect_of_exec h).phase ?_
    rintro rfl
    exact hne ⟨eq_word_of_decode_encCfg hd, herr⟩
  · injection h with h
    rw [← h]
    exact State.raiseFault_phase _ .illegalCmd

/-- A step leaves the phase, unless it is reset or executes ENC.CFG. -/
theorem step_phase {s t : State} {op : HostOp} {rest : List HostOp} (hp : s.pending = op :: rest)
    (hstep : step s = .next t) (hne : ¬(op = .wr32 0x100 0x40000000 ∧ s.status.err = false)) (hreset : op ≠ .reset) :
    t.status.phase = s.status.phase := by
  rcases step_cases hstep with ⟨hnil, -⟩ | ⟨op', rest', hp', hcase⟩
  · rw [hnil] at hp
    cases hp
  obtain ⟨rfl, rfl⟩ : op' = op ∧ rest' = rest := List.cons.inj (hp'.symm.trans hp)
  rcases hcase with ⟨n, a, -, rfl⟩ | ⟨hop, -⟩ | ⟨w, rfl, hw⟩ | ⟨-, -, -, hplain⟩
  · exact phase_hostRead n a _
  · exact absurd hop hreset
  · refine writeCmd_phase (s := { s with pending := rest' }) hw fun ⟨hword, herr⟩ => hne ⟨?_, herr⟩
    exact congrArg (HostOp.wr32 cmdAddr) hword
  · exact hplain.phase

/-- Settles O51: the step that executes ENC.CFG runs it on the state it found, and `step_phase` says the rest. -/
theorem phaseAlternatesOnExecutedEncodesOnly : Obligations.PhaseAlternatesOnExecutedEncodesOnly := by
  refine ⟨rfl, fun s t op rest hp hstep => ⟨?_, step_phase hp hstep⟩⟩
  rintro ⟨rfl, herr⟩
  have hdecode : decode 0x40000000 = .ok .encCfg := everyWellFormedInstrDecodesFromItsWord .encCfg rfl
  rw [stepRunsTheDecodedCommand s _ rest .encCfg hp herr hdecode] at hstep
  refine ⟨?_, fun hwf => phaseSelectsThePatternOfEveryFrame.1 { s with pending := rest, cmd := 0x40000000 } t hwf hstep⟩
  rw [eq_encoded_of_exec hstep, State.encoded_phase, otherPhase_eq]

end Sys2Proof.Machine
end

section
/-! PROOFS of the statements of 60_exceptions.md, first the rules they use: which commands can end in a fault, what a
step that records a fault leaves, and what an access does under another `STATUS`. -/

namespace Sys2Proof.Machine

/-! ### Faults of commands (R212) -/

/-- A command that takes `ERR` from 0 to 1 is a checksum command whose bytes pass the end of its buffer, and all that it
does is to raise RANGE (R100, R126, R165, R190). -/
theorem exec_recorded {i : Instr} {s t : State} (herr : s.status.err = false) (hexec : exec i s = .next t)
    (hrec : t.status.err = true) :
    t = s.raiseFault .range ∧
      ((∃ buf off len, i = .crc8 buf off len ∧ printedSize buf < off + len) ∨
        ∃ buf off len n, i = .crc14 buf off len n ∧ printedSize buf < off + len + (if 0 < n then 1 else 0)) := by
  have hchanged : t.status.err ≠ s.status.err := by simp [herr, hrec]
  rcases exec_cases i s with ⟨buf, off, len, rfl, ⟨hpast, hx⟩ | ⟨v, hx⟩⟩ |
      ⟨buf, off, len, n, rfl, ⟨hpast, hx⟩ | ⟨v, hx⟩⟩ | ⟨samples, -, hx⟩ | ⟨rfl, hx⟩ <;>
    obtain rfl := Host.Outcome.next.inj (hx.symm.trans hexec)
  · exact ⟨rfl, .inl ⟨buf, off, len, rfl, bufSize_eq_printedSize buf ▸ hpast⟩⟩
  · exact absurd rfl hchanged
  · exact ⟨rfl, .inr ⟨buf, off, len, n, rfl, bufSize_eq_printedSize buf ▸ hpast⟩⟩
  · exact absurd rfl hchanged
  · exact absurd (by rw [OnlyStores.decodeLoop]) hchanged
  · exact absurd (by rw [OnlyMem.foldl_writeFrame]; rfl) hchanged

/-- Settles O23, from what a command that records a fault is. -/
theorem commandsFaultOnlyOnRange : Obligations.CommandsFaultOnlyOnRange := by
  intro i s t herr hexec hrec
  obtain ⟨rfl, hpast⟩ := exec_recorded herr hexec hrec
  refine ⟨?_, hpast⟩
  rw [State.raiseFault_of_not_err herr]

/-! ### Steps that record a fault (R213, R218) -/

theorem isRead_iff {op : HostOp} {n : Width} {a : Addr} : IsRead op n a ↔ op = readOp n a := by
  cases n <;> simp [IsRead, readOp]

theorem readOp_ne_wr32 (n : Width) (a b : Addr) (w : Word) : readOp n a ≠ .wr32 b w := by
  cases n <;> simp [readOp]

/-- What the step that performs `op` leaves of `s` when it records a fault: a read returns 0, a write to `CMD` has
stored the word, and any other write has no effect but the fault. -/
inductive RecordedFault (s : State) (rest : List HostOp) : HostOp → State → Prop
  | read (n : Width) (a : Addr) :
      RecordedFault s rest (readOp n a)
        { ({ s with pending := rest } : State).raiseFault .access with readData := 0 }
  | command (w : Word) (x : Cause) (hx : x ≠ .none) :
      RecordedFault s rest (.wr32 cmdAddr w) (({ s with pending := rest, cmd := w } : State).raiseFault x)
  | write (op : HostOp) (x : Cause) (hx : x ≠ .none) (hcmd : ∀ w, op ≠ .wr32 cmdAddr w)
      (hread : ∀ n a, op ≠ readOp n a) :
      RecordedFault s rest op (({ s with pending := rest } : State).raiseFault x)

theorem RecordedFault.of_hostRead {s : State} {rest : List HostOp} {n : Width} {a : Addr}
    (herr : s.status.err = false) (hrec : (hostRead n a { s with pending := rest }).status.err = true) :
    RecordedFault s rest (readOp n a) (hostRead n a { s with pending := rest }) := by
  rcases hostRead_cases n a { s with pending := rest } with ⟨e, -, hr⟩ | ⟨-, hr⟩ <;> rw [hr] at hrec ⊢
  · exact absurd hrec (Bool.eq_false_iff.mp herr)
  · exact .read n a

theorem RecordedFault.of_writeCmd {s t : State} {rest : List HostOp} {w : Word} (herr : s.status.err = false)
    (hw : writeCmd w { s with pending := rest } = .next t) (hrec : t.status.err = true) :
    RecordedFault s rest (.wr32 cmdAddr w) t := by
  rcases writeCmd_cases w { s with pending := rest } with ⟨herr', -⟩ | ⟨-, i, -, hx⟩ | ⟨-, r, -, hx⟩
  · exact absurd herr' (Bool.eq_false_iff.mp herr)
  · obtain ⟨rfl, -⟩ := exec_recorded (s := { s with pending := rest, cmd := w }) herr (hx.symm.trans hw) hrec
    exact .command w .range (by decide)
  · obtain rfl := Host.Outcome.next.inj (hx.symm.trans hw)
    exact .command w .illegalCmd (by decide)

theorem RecordedFault.of_plainWrite {s t : State} {rest : List HostOp} {op : HostOp} (herr : s.status.err = false)
    (hcmd : ∀ w, op ≠ .wr32 cmdAddr w) (hread : ∀ n a, op ≠ readOp n a)
    (hplain : PlainWrite { s with pending := rest } t) (hrec : t.status.err = true) : RecordedFault s rest op t := by
  rcases hplain.status with hst | rfl | rfl
  · rw [hst] at hrec
    exact absurd hrec (Bool.eq_false_iff.mp herr)
  · exact .write op .access (by decide) hcmd hread
  · exact .write op .chipCountValue (by decide) hcmd hread

theorem step_recorded {s t : State} {op : HostOp} {rest : List HostOp} (hp : s.pending = op :: rest)
    (herr : s.status.err = false) (hstep : step s = .next t) (hrec : t.status.err = true) :
    RecordedFault s rest op t := by
  rcases step_cases hstep with ⟨hnil, -⟩ | ⟨op', rest', hp', hcase⟩
  · rw [hnil] at hp
    cases hp
  obtain ⟨rfl, rfl⟩ : op' = op ∧ rest' = rest := List.cons.inj (hp'.symm.trans hp)
  rcases hcase with ⟨n, a, hread, rfl⟩ | ⟨-, rfl⟩ | ⟨w, rfl, hw⟩ | ⟨hcmd, hread, -, hplain⟩
  · rw [isRead_iff.mp hread]
    exact .of_hostRead herr hrec
  · cases hrec
  · exact .of_writeCmd herr hw hrec
  · exact .of_plainWrite herr hcmd (fun n a h => hread n a (isRead_iff.mpr h)) hplain hrec

/-- Settles O22: a read, a write to `CMD` and any other write each leave the state that the statement prints. -/
theorem recordedFaultLeavesEverythingElse : Obligations.RecordedFaultLeavesEverythingElse := by
  intro s t op rest hp herr hstep hrec
  have hfirst : ∀ (w : Word) (x : Cause), ({ s with pending := rest, cmd := w } : State).raiseFault x
      = { s with pending := rest, cmd := w, status := ⟨true, x, s.status.phase⟩ } :=
    fun w x => State.raiseFault_of_not_err herr
  cases step_recorded hp herr hstep hrec with
  | read n a =>
    rw [hfirst s.cmd]
    exact ⟨rfl, Cause.noConfusion, fun w h => absurd h (readOp_ne_wr32 n a _ w), fun _ => rfl, fun _ _ _ => rfl,
      fun h => absurd rfl (h n a)⟩
  | command w x hx =>
    rw [hfirst w]
    exact ⟨rfl, hx, fun w' h => (HostOp.wr32.inj h).2, fun h => absurd rfl (h w),
      fun n a h => absurd h.symm (readOp_ne_wr32 n a _ w), fun _ => rfl⟩
  | write op x hx hcmd hread =>
    rw [hfirst s.cmd]
    exact ⟨rfl, hx, fun w h => absurd h (hcmd w), fun _ => rfl, fun n a h => absurd h (hread n a), fun _ => rfl⟩

/-! ### Accesses under another `STATUS` (R214, R219) -/

theorem admitted_status {n : Width} {a : Addr} (h : admitted n a = some .status) : n = .w32 ∧ a = 0x104 := by
  obtain ⟨haddr, hwidth⟩ := admitted_some h
  exact ⟨hwidth.symm, BitVec.eq_of_toNat_eq haddr.symm⟩

/-- No element but `STATUS` reads what `STATUS` holds. -/
theorem readElem_withStatus {e : Elem} (h : e ≠ .status) (s : State) (st : Status) :
    readElem { s with status := st } e = readElem s e := by
  cases e with
  | status => exact absurd rfl h
  | _ => rfl

section Faulted

variable {s : State} (herr : s.status.err = true) (st : Status)
include herr

/-- A fault changes `STATUS` alone, and while `ERR = 1` not even that (R213). -/
theorem raiseFault_of_withStatus (x : Cause) :
    s.raiseFault x = { ({ s with status := st } : State).raiseFault x with status := s.status } := by
  rw [State.raiseFault_of_err herr, State.raiseFault_eq_recordedStatus]

theorem hostRead_of_withStatus {n : Width} {a : Addr} (hne : ¬(n = .w32 ∧ a = 0x104)) :
    hostRead n a s = { hostRead n a { s with status := st } with status := s.status } := by
  cases hadm : admitted n a with
  | none =>
    rw [hostRead_of_not_admitted hadm, hostRead_of_not_admitted hadm]
    exact congrArg (fun t : State => { t with readData := 0 }) (raiseFault_of_withStatus herr st .access)
  | some e =>
    have he : e ≠ .status := by
      rintro rfl
      exact hne (admitted_status hadm)
    simp only [hostRead, hadm, readElem_withStatus he]

theorem writeChipCount_of_withStatus (v : Byte) :
    writeChipCount v s = { writeChipCount v { s with status := st } with status := s.status } := by
  rcases Nat.lt_or_ge 8 v.toNat with hv | hv
  · rw [writeChipCount_of_gt hv, writeChipCount_of_gt hv]
    exact raiseFault_of_withStatus herr st .chipCountValue
  · rw [writeChipCount_of_le hv, writeChipCount_of_le hv]

theorem writeElem_of_withStatus {e : Elem} (he : e ≠ .cmd) {v : Word} {u : State}
    (hu : writeElem v { s with status := st } e = .next u) : writeElem v s e = .next { u with status := s.status } := by
  cases e with
  | cmd => exact absurd rfl he
  | chipCount =>
    obtain rfl := Host.Outcome.next.inj hu
    exact congrArg _ (writeChipCount_of_withStatus herr st _)
  | rx | swap5v | crc14Init | balMask =>
    obtain rfl := Host.Outcome.next.inj hu
    rfl
  | tx | status | validMap | crc8Res | crc14Res | store =>
    obtain rfl := Host.Outcome.next.inj hu
    exact congrArg _ (raiseFault_of_withStatus herr st .access)

theorem hostWrite_of_withStatus {n : Width} {a : Addr} (hne : ¬(n = .w32 ∧ a = cmdAddr)) {v : Word} {u : State}
    (hu : hostWrite n a v { s with status := st } = .next u) :
    hostWrite n a v s = .next { u with status := s.status } := by
  cases hadm : admitted n a with
  | none =>
    rw [hostWrite_of_not_admitted hadm] at hu ⊢
    obtain rfl := Host.Outcome.next.inj hu
    exact congrArg _ (raiseFault_of_withStatus herr st .access)
  | some e =>
    have he : e ≠ .cmd := by
      rintro rfl
      exact hne (admitted_cmd hadm)
    simp only [hostWrite, hadm] at hu ⊢
    exact writeElem_of_withStatus herr st he hu

/-- While `ERR = 1`, an access that is neither reset, nor a write to `CMD`, nor the read of `STATUS` does what it does
under any other `STATUS`, and leaves its own `STATUS` as it was. -/
theorem perform_of_withStatus {op : HostOp} (hreset : op ≠ .reset) (hcmd : ∀ w, op ≠ .wr32 0x100 w)
    (hstatus : op ≠ .rd32 0x104) {u : State} (hu : perform op { s with status := st } = .next u) :
    perform op s = .next { u with status := s.status } := by
  cases op with
  | reset => exact absurd rfl hreset
  | rd8 a | rd16 a =>
    obtain rfl := Host.Outcome.next.inj hu
    exact congrArg _ (hostRead_of_withStatus herr st (by simp))
  | rd32 a =>
    obtain rfl := Host.Outcome.next.inj hu
    exact congrArg _ (hostRead_of_withStatus herr st fun ⟨_, ha⟩ => hstatus (congrArg HostOp.rd32 ha))
  | wr8 a v | wr16 a v => exact hostWrite_of_withStatus herr st (by simp) hu
  | wr32 a v =>
    exact hostWrite_of_withStatus herr st (fun ⟨_, ha⟩ => hcmd v (congrArg (HostOp.wr32 · v) ha)) hu

end Faulted

/-- Settles O7: a write to `CMD` tests `ERR` before anything else, and no other access does. -/
theorem onlyCmdWritesAreBlockedWhileErr : Obligations.OnlyCmdWritesAreBlockedWhileErr := by
  refine fun s op rest hp herr => ⟨?_, fun u hreset hcmd hstatus hu => ?_⟩
  · rintro ⟨w, rfl⟩
    rw [step_of_cons hp]
    exact writeCmd_of_err (s := { s with pending := rest }) w herr
  · rw [step_of_cons (s := { s with status := ⟨false, .none, s.status.phase⟩ }) hp] at hu
    rw [step_of_cons hp]
    exact perform_of_withStatus (s := { s with pending := rest }) herr _ hreset hcmd hstatus hu

end Sys2Proof.Machine
end

section
/-! PROOFS of the statements of 70_reset_and_hazards.md: the boot writes. Each of the three is a register write, so what
each does is what the statements of the register writes say (O16, O17). -/

namespace Sys2Proof.Machine

/-- `CRC14_INIT` drops bits 15:14 of what is written (R31); a seed of 14 bits has none to lose. -/
theorem setWidth_crc_and_mask (c : Crc) : c.setWidth 16 &&& 0x3FFF = (c.setWidth 16 : Half) := by
  apply BitVec.eq_of_toNat_eq
  have hc : c.toNat < 2 ^ 14 := c.isLt
  rw [BitVec.toNat_and, BitVec.toNat_setWidth_of_le (by decide)]
  calc c.toNat &&& 0x3FFF = c.toNat % 2 ^ 14 := Nat.and_two_pow_sub_one_eq_mod _ 14
    _ = c.toNat := Nat.mod_eq_of_lt hc

/-- The host's write of two chips for each board: four boards have the eight chips that `CHIPCOUNT` takes (R28, R242). -/
theorem toNat_bootChipCount {boards : Nat} (h : boards ≤ 4) : (BitVec.ofNat 8 (boards * 2)).toNat = boards * 2 := by
  rw [BitVec.toNat_ofNat]
  exact Nat.mod_eq_of_lt (by omega)

/-- Settles O60: the write of `CHIPCOUNT` is in range, the seed loses no bit to the register's mask, and the write of
`SWAP5V` cannot fail. -/
theorem bootSequenceLeavesTheBlockBooted : Obligations.BootSequenceLeavesTheBlockBooted := by
  intro s boards swap rest _ hboards hp
  have hcount : (BitVec.ofNat 8 (boards * 2)).toNat = boards * 2 := toNat_bootChipCount hboards
  refine ⟨_, _, _,
    (chipCountWriteStoresOrFaults s _ (_ :: _ :: rest) hp).1 (by omega),
    (configRegisterWritesStoreTheValue _ (_ :: rest)).2.1 _ rfl,
    (configRegisterWritesStoreTheValue _ rest).1 _ rfl,
    ⟨hcount, setWidth_crc_and_mask _⟩, ?_⟩
  simp only [setWidth_crc_and_mask, Nat.mul_comm boards 2]

end Sys2Proof.Machine
end

section
/-! PROOFS of the statements of 41_crc14.md about the table, the byte step and payloads in pieces, first the rules they use:
the eight shifts that build an entry of the table as one linear map, and a byte in the accumulator's top bits that bit steps
use up. -/

namespace Sys2Proof.Machine

/-! ### Shifts in a row (R121) -/

/-- A row of shifts distributes over XOR, as one shift does. -/
theorem iterate_t14Shift_xor (n : Nat) (a b : Crc) :
    Config.t14Shift^[n] (a ^^^ b) = Config.t14Shift^[n] a ^^^ Config.t14Shift^[n] b := by
  induction n generalizing a b with
  | zero => rfl
  | succ n ih => rw [Function.iterate_succ_apply, t14Shift_xor, ih]; rfl

/-- Shifts that push no 1 out of bit 13 never fold in the polynomial. -/
theorem iterate_t14Shift_of_top_clear {a : Crc} {n : Nat} (hn : n ≤ 14)
    (h : ∀ j, 14 - n ≤ j → a.getLsbD j = false) : Config.t14Shift^[n] a = a <<< n := by
  induction n with
  | zero => exact (BitVec.shiftLeft_zero a).symm
  | succ n ih =>
    have hclear : (a <<< n).getLsbD 13 = false := by
      rw [BitVec.getLsbD_shiftLeft, h (13 - n) (by omega), Bool.and_false]
    rw [Function.iterate_succ_apply', ih (by omega) fun j hj => h j (by omega), Config.t14Shift, hclear,
      if_neg Bool.false_ne_true, ← BitVec.shiftLeft_add]

/-! ### A byte in the accumulator's top bits (R121, R123) -/

/-- The byte in bits 13:6, where an index of the table starts (R121). -/
def topByte (b : Byte) : Crc := b.setWidth 14 <<< 6

theorem t14_eq_iterate_topByte (i : Byte) : Config.t14 i = Config.t14Shift^[8] (topByte i) := rfl

theorem topByte_xor (a b : Byte) : topByte (a ^^^ b) = topByte a ^^^ topByte b := by
  rw [topByte, BitVec.setWidth_xor, BitVec.shiftLeft_xor_distrib, topByte, topByte]

theorem getLsbD_topByte {j : Nat} (hj : j < 14) (b : Byte) :
    (topByte b).getLsbD j = (!decide (j < 6) && b.getLsbD (j - 6)) := by
  rw [topByte, BitVec.getLsbD_shiftLeft, BitVec.getLsbD_setWidth, decide_eq_true hj,
    decide_eq_true (show j - 6 < 14 by omega), Bool.true_and, Bool.true_and]

/-- The accumulator loses at bit 13 what the byte loses at bit 7. -/
theorem topByte_shiftLeft_one (b : Byte) : topByte (b <<< 1) = topByte b <<< 1 := by
  apply BitVec.eq_of_getLsbD_eq
  intro j hj
  simp only [BitVec.getLsbD_shiftLeft, getLsbD_topByte hj, getLsbD_topByte (show j - 1 < 14 by omega),
    Nat.sub_right_comm j 6 1]
  grind

/-- The six bits below the top 8. -/
def lowBits (acc : Crc) : Crc := (acc.setWidth 6).setWidth 14

theorem getLsbD_lowBits {j : Nat} (hj : j < 14) (acc : Crc) :
    (lowBits acc).getLsbD j = (decide (j < 6) && acc.getLsbD j) := by
  rw [lowBits, BitVec.getLsbD_setWidth, BitVec.getLsbD_setWidth, decide_eq_true hj, Bool.true_and]

/-- The accumulator cut at bit 6: its top 8 bits and the six below them. -/
theorem lowBits_xor_topByte (acc : Crc) : lowBits acc ^^^ topByte ((acc >>> 6).setWidth 8) = acc := by
  apply BitVec.eq_of_getLsbD_eq
  intro j hj
  simp only [BitVec.getLsbD_xor, getLsbD_lowBits hj, getLsbD_topByte hj, BitVec.getLsbD_setWidth,
    BitVec.getLsbD_ushiftRight]
  grind

/-- Eight shifts lift the low six bits without a loss; every bit above them is gone. -/
theorem iterate_t14Shift_lowBits (acc : Crc) : Config.t14Shift^[8] (lowBits acc) = acc <<< 8 := by
  have hclear : ∀ j, 14 - 8 ≤ j → (lowBits acc).getLsbD j = false := fun j hj => by
    rw [lowBits, BitVec.getLsbD_setWidth, BitVec.getLsbD_of_ge _ _ hj, Bool.and_false]
  rw [iterate_t14Shift_of_top_clear (by decide) hclear]
  apply BitVec.eq_of_getLsbD_eq
  intro j hj
  rw [BitVec.getLsbD_shiftLeft, BitVec.getLsbD_shiftLeft, getLsbD_lowBits (by omega),
    decide_eq_true (show j - 8 < 6 by omega), Bool.true_and]

/-- A shift of the accumulator against a byte is a bit step of the byte's bit 7, against the byte moved up by one. -/
theorem t14Shift_xor_topByte (acc : Crc) (b : Byte) :
    Config.t14Shift (acc ^^^ topByte b) = bitStep acc (b.getLsbD 7) ^^^ topByte (b <<< 1) := by
  have htop : (topByte b).getLsbD 13 = b.getLsbD 7 := getLsbD_topByte (by decide) b
  rw [Config.t14Shift, BitVec.getLsbD_xor, htop, BitVec.shiftLeft_xor_distrib, bitStep, topByte_shiftLeft_one]
  split
  · ac_rfl
  · rfl

/-- `n` shifts of the accumulator against a byte are the bit steps of the byte's top `n` bits, against what is left. -/
theorem iterate_t14Shift_xor_topByte (acc : Crc) (b : Byte) {n : Nat} (hn : n ≤ 8) :
    Config.t14Shift^[n] (acc ^^^ topByte b) = (residBits b n).foldl bitStep acc ^^^ topByte (b <<< n) := by
  induction n with
  | zero => rw [BitVec.shiftLeft_zero]; rfl
  | succ n ih =>
    have hbit : (b <<< n).getLsbD 7 = b.getLsbD (7 - n) := by
      rw [BitVec.getLsbD_shiftLeft, decide_eq_true (show 7 < 8 by decide), decide_eq_false (show ¬7 < n by omega),
        Bool.not_false, Bool.true_and, Bool.true_and]
    rw [Function.iterate_succ_apply', ih (by omega), t14Shift_xor_topByte, hbit, residBits_succ, List.foldl_concat,
      BitVec.shiftLeft_add]

/-! ### The byte step (R123, R124) -/

/-- A byte step is eight shifts of the accumulator against the byte. -/
theorem byteStep_eq_iterate (acc : Crc) (b : Byte) : byteStep acc b = Config.t14Shift^[8] (acc ^^^ topByte b) := by
  calc byteStep acc b
      = acc <<< 8 ^^^ Config.t14Shift^[8] (topByte ((acc >>> 6).setWidth 8 ^^^ b)) := rfl
    _ = Config.t14Shift^[8] (lowBits acc)
          ^^^ Config.t14Shift^[8] (topByte ((acc >>> 6).setWidth 8) ^^^ topByte b) := by
      rw [iterate_t14Shift_lowBits, topByte_xor]
    _ = Config.t14Shift^[8] (lowBits acc ^^^ topByte ((acc >>> 6).setWidth 8) ^^^ topByte b) := by
      rw [← iterate_t14Shift_xor, BitVec.xor_assoc]
    _ = Config.t14Shift^[8] (acc ^^^ topByte b) := by rw [lowBits_xor_topByte]

/-- A byte step is a bit step for each of the byte's eight bits. -/
theorem byteStep_eq_foldl_bitStep (acc : Crc) (b : Byte) : byteStep acc b = (residBits b 8).foldl bitStep acc := by
  have hused : topByte (b <<< 8) = 0#14 := by rw [BitVec.shiftLeft_eq_zero le_rfl]; rfl
  rw [byteStep_eq_iterate, iterate_t14Shift_xor_topByte acc b le_rfl, hused, BitVec.xor_zero]

/-- Settles O30: an entry is eight shifts of its index in the top bits, and both distribute over XOR. -/
theorem t14IsLinear : Obligations.T14IsLinear := by
  intro i j
  simp only [t14_eq_iterate_topByte, topByte_xor, iterate_t14Shift_xor]

/-- Settles O31: a last byte is eight bit steps, of which the last is that of bit 0. -/
theorem byteStepIsEightBitSteps : Obligations.ByteStepIsEightBitSteps := by
  intro init x b r
  calc crc14 init (x ++ [b]) 0 r
      = byteStep (crc14 init x 0 b) b := crc14_append init x [b] 0 r b
    _ = crc14 init x 8 b := byteStep_eq_foldl_bitStep _ b
    _ = bitStep (crc14 init x 7 b) (b.getLsbD 0) := crc14_succ init x 7 b

/-- Settles O32: a zero byte is a byte step that keeps 0; the second law is `crc14_append`. -/
theorem crc14ZeroAndChainingLaws : Obligations.Crc14ZeroAndChainingLaws := by
  refine ⟨fun k r => ?_, fun init x y n r r' => (crc14_append init x y n r r').symm⟩
  have hzero : byteStep 0 0 = 0 := by decide
  induction k with
  | zero => rfl
  | succ k ih => rw [List.replicate_succ, crc14, List.foldl_cons, hzero]; exact ih

/-! ### The printed table (R122) -/

/-- The `n` entries from index `first` on. -/
def t14From (first n : Nat) : List Crc := (List.range' first n).map fun i => Config.t14 (BitVec.ofNat 8 i)

theorem t14From_append (first m n : Nat) : t14From first m ++ t14From (first + m) n = t14From first (m + n) := by
  rw [t14From, t14From, ← List.map_append, List.range'_append_1, t14From]

theorem getElem?_t14From {n : Nat} {i : Byte} (h : i.toNat < n) : (t14From 0 n)[i.toNat]? = some (Config.t14 i) := by
  rw [t14From, List.getElem?_map, List.getElem?_range' h, Option.map_some, Nat.zero_add, Nat.one_mul,
    BitVec.ofNat_toNat, BitVec.setWidth_eq]

theorem printedT14Part0_eq : printedT14Part0 = t14From 0 64 := by decide
theorem printedT14Part1_eq : printedT14Part1 = t14From 64 64 := by decide
theorem printedT14Part2_eq : printedT14Part2 = t14From 128 64 := by decide
theorem printedT14Part3_eq : printedT14Part3 = t14From 192 64 := by decide

theorem printedT14_eq : printedT14 = t14From 0 256 := by
  rw [printedT14, printedT14Part0_eq, printedT14Part1_eq, printedT14Part2_eq, printedT14Part3_eq,
    t14From_append 0 64 64, t14From_append 0 128 64, t14From_append 0 192 64]

/-- Settles O29: each printed quarter is evaluated against its 64 generated entries, and the four stand in order. -/
theorem t14IsThePrintedTable : Obligations.T14IsThePrintedTable := by
  rw [Obligations.T14IsThePrintedTable, printedT14_eq]
  exact ⟨by rw [t14From, List.length_map, List.length_range'], fun i => getElem?_t14From i.isLt⟩

end Sys2Proof.Machine
end

section
/-! PROOFS of the statements of 30_encoding.md: the words of the test vectors, from the round trip of O1 (R88, R92). -/

namespace Sys2Proof.Machine

theorem decode_of_encode {w : Word} (i : Instr) (hi : i.wellFormed = true) (hw : encode i = w) : decode w = .ok i :=
  hw ▸ everyWellFormedInstrDecodesFromItsWord i hi

/-- Settles O4: each word is the one R88's encoder gives for the command written beside it. -/
theorem writtenWordsDecodeToTheirCommands : Obligations.WrittenWordsDecodeToTheirCommands :=
  ⟨decode_of_encode (.crc8 .rx 3 2) rfl rfl, decode_of_encode (.crc8 .tx 0 48) rfl rfl,
    decode_of_encode (.crc8 .rx 75 1) rfl rfl, decode_of_encode (.crc14 .rx 0 1 3) rfl rfl,
    decode_of_encode (.crc14 .rx 74 0 1) rfl rfl, decode_of_encode (.crc14 .tx 47 0 7) rfl rfl,
    decode_of_encode .decCve rfl rfl, decode_of_encode .decAux rfl rfl, decode_of_encode .decTemp rfl rfl,
    decode_of_encode .encCfg rfl rfl⟩

end Sys2Proof.Machine
end

section
/-! PROOFS of the statements of 10_state.md, 60_exceptions.md and 70_reset_and_hazards.md about a step's outcome: the step
with nothing to do, the step of the reset input, and first that each form of access answers a next state. -/

namespace Sys2Proof.Machine

/-! ### Every outcome is a next state (R213) -/

theorem exec_next (i : Instr) (s : State) : ∃ t, exec i s = .next t := by
  rcases exec_cases i s with ⟨_, _, _, -, ⟨-, h⟩ | ⟨_, h⟩⟩ | ⟨_, _, _, _, -, ⟨-, h⟩ | ⟨_, h⟩⟩ | ⟨_, -, h⟩ | ⟨-, h⟩
  all_goals exact ⟨_, h⟩

theorem writeCmd_next (w : Word) (s : State) : ∃ t, writeCmd w s = .next t := by
  rcases writeCmd_cases w s with ⟨-, h⟩ | ⟨-, i, -, h⟩ | ⟨-, _, -, h⟩
  · exact ⟨_, h⟩
  · exact h ▸ exec_next i _
  · exact ⟨_, h⟩

theorem writeElem_next (v : Word) (s : State) (e : Elem) : ∃ t, writeElem v s e = .next t := by
  cases e with
  | cmd => exact writeCmd_next v s
  | _ => exact ⟨_, rfl⟩

theorem hostWrite_next (n : Width) (a : Addr) (v : Word) (s : State) : ∃ t, hostWrite n a v s = .next t := by
  rcases hostWrite_cases n a v s with ⟨e, -, h⟩ | ⟨-, h⟩
  · exact h ▸ writeElem_next v s e
  · exact ⟨_, h⟩

theorem perform_next (op : HostOp) (s : State) : ∃ t, perform op s = .next t := by
  rcases perform_cases op s with ⟨_, _, h⟩ | ⟨-, h⟩ | ⟨n, a, v, -, h⟩
  · exact ⟨_, h⟩
  · exact ⟨_, h⟩
  · exact h ▸ hostWrite_next n a v s

/-- Settles O9: the step holds the state or performs one access, and every access answers a next state. -/
theorem everyStepAnswersANextState : Obligations.EveryStepAnswersANextState := by
  intro s
  cases hp : s.pending with
  | nil => exact ⟨s, step_of_nil hp⟩
  | cons op rest => exact step_of_cons hp ▸ perform_next op _

/-! ### The empty list and the reset input (R240) -/

/-- Settles O8: the step's own case for an empty list. -/
theorem stepHoldsTheStateWhenNothingIsPending : Obligations.StepHoldsTheStateWhenNothingIsPending := fun _ => step_of_nil

/-- Settles O10: the reset input is performed in the state it was taken off the list of, so it keeps the rest of the list. -/
theorem resetInputRestoresEveryElement : Obligations.ResetInputRestoresEveryElement := by
  intro s rest hp
  rw [step_of_cons hp]
  rfl

end Sys2Proof.Machine
end
